-- ==== Sys2Proof/Word.lean ====
section
/-! DEFINITION. The word types of the core and the one plain operation on them, the pair of bytes read
as a word (00_scope.md R6 and R7; widths from 00_scope.md R5). -/

namespace Sys2Proof

/-- One byte: a V register, a timer, a memory cell, an immediate nn (R5, R21, R29, R50, R73). -/
abbrev Byte := BitVec 8

/-- A 16-bit quantity: the instruction word, `pc`, `I`, a stack entry (R5, R24, R25, R28, R70). -/
abbrev Word := BitVec 16

/-- The 12-bit address immediate nnn (R71, R73). -/
abbrev Addr := BitVec 12

/-- The number of a general register, V0 to VF (R21). -/
abbrev Reg := Fin 16

/-- `VF`, the general register that also serves as the only flag (R22). -/
abbrev VF : Reg := 15

/-- `V0`, the register that BNNN adds to its target (R127). -/
abbrev V0 : Reg := 0

/-- The pair `{hi, lo}` of two bytes, `hi * 256 + lo` (R6). -/
def bytePair (hi lo : Byte) : Word := BitVec.ofNat 16 (hi.toNat * 256 + lo.toNat)

end Sys2Proof
end

