-- ==== Sys2Proof/Config.lean ====
section
/-! DEFINITION. The fixed parameters of the block (00_scope.md R5), the type of its one open parameter
VF_WRITE_ORDER (R5, 42_alu.md R142), and the free values: what the host does between two steps
(60_exceptions.md R228, R229; 10_state.md R34, R35). -/

namespace Sys2Proof.Config

/-- MEM_SIZE: addresses 0x000 to 0xFFF (R5, R50). -/
abbrev memSize : Nat := 4096

/-- ROM_BASE, which is also the reset value of `pc` (R5, R25). -/
abbrev romBase : Nat := 0x200

/-- ROM_MAX: the most bytes a ROM may have, 4096 - 0x200 (R5, R58). -/
abbrev romMax : Nat := memSize - romBase

/-- GLYPH_BASE: the first address of the glyph table (R5, R60). -/
abbrev glyphBase : Nat := 0x050

/-- The bytes, and so the rows, of one glyph (R5, R60). -/
abbrev glyphRows : Nat := 5

/-- STACK_DEPTH (R5, R28). -/
abbrev stackDepth : Nat := 16

/-- FB_W: the columns of the framebuffer (R5, R31). -/
abbrev fbWidth : Nat := 64

/-- FB_H: the rows of the framebuffer (R5, R31). -/
abbrev fbHeight : Nat := 32

/-- The width of a sprite in pixels (R5). -/
abbrev spriteWidth : Nat := 8

/-- NUM_KEYS (R5, R34). -/
abbrev numKeys : Nat := 16

/-- VF_WRITE_ORDER (R5, R142): the order in which an ALU instruction writes its result and its flag.
The two orders differ only when the destination is VF. -/
inductive VfWriteOrder where
  /-- `V[x] <- r; V[0xF] <- f`: the flag is written last, the spec's value. -/
  | flagLast
  /-- `V[0xF] <- f; V[x] <- r`: the result is written last. -/
  | resultLast
  deriving DecidableEq, Repr

/-- What the host does between one `step()` call and the next, and what it gives the next one.
Ticks change only the timers and `clear_dirty()` only the dirty flag, so every interleaving of the
two between two steps has the effect of a number of ticks and a clear or no clear (R223, R226, R229). -/
structure HostTurn where
  /-- How many times the host calls `tick_timers()` (R223). -/
  ticks : Nat
  /-- Whether the host calls `clear_dirty()` (R226). -/
  clears : Bool
  /-- The keypad snapshot of the next step: bit k is key k (R34). -/
  keys : BitVec 16
  /-- The random byte of the next step (R35). -/
  rand : Byte
  deriving DecidableEq, Repr, Inhabited

/-- DESIGN CHOICE (log 1), safe: the n-th turn of a host that no schedule in the state fixes.
Nothing constrains it: the keypad snapshot and the random byte are "unconstrained" (R34, R35) and any
number of ticks may occur between two steps (R229). -/
opaque freeTurn : Nat → HostTurn

end Sys2Proof.Config
end

