-- ==== Sys2Proof/Syntax.lean ====
section
/-! DEFINITION. The instructions: one constructor for each of the 34 rows of 30_encoding.md R75, in the
order of that table. Operand types are those of R71 and R73, so a term of `Instr` cannot hold an operand that
its field has no room for. -/

namespace Sys2Proof

/-- The 34 instructions of the base CHIP-8 set (R1, R75). `x` and `y` number V registers, `nn` is a byte,
`nnn` a 12-bit address and `n` a 4-bit count (R71, R73). -/
inductive Instr where
  /-- 00E0, CLS (R100). -/
  | cls
  /-- 00EE, RET (R120). -/
  | ret
  /-- 1NNN, JP nnn (R121). -/
  | jp (nnn : Addr)
  /-- 2NNN, CALL nnn (R122). -/
  | call (nnn : Addr)
  /-- 3XNN, SE Vx, nn (R123). -/
  | seImm (x : Reg) (nn : Byte)
  /-- 4XNN, SNE Vx, nn (R124). -/
  | sneImm (x : Reg) (nn : Byte)
  /-- 5XY0, SE Vx, Vy (R125). -/
  | seReg (x y : Reg)
  /-- 6XNN, LD Vx, nn (R140). -/
  | ldImm (x : Reg) (nn : Byte)
  /-- 7XNN, ADD Vx, nn (R141). -/
  | addImm (x : Reg) (nn : Byte)
  /-- 8XY0, LD Vx, Vy (R143). -/
  | ldReg (x y : Reg)
  /-- 8XY1, OR Vx, Vy (R144). -/
  | orReg (x y : Reg)
  /-- 8XY2, AND Vx, Vy (R145). -/
  | andReg (x y : Reg)
  /-- 8XY3, XOR Vx, Vy (R146). -/
  | xorReg (x y : Reg)
  /-- 8XY4, ADD Vx, Vy (R147). -/
  | addReg (x y : Reg)
  /-- 8XY5, SUB Vx, Vy (R148). -/
  | subReg (x y : Reg)
  /-- 8XY6, SHR Vx, Vy: the y field is encoded but not read (R149). -/
  | shr (x y : Reg)
  /-- 8XY7, SUBN Vx, Vy (R150). -/
  | subnReg (x y : Reg)
  /-- 8XYE, SHL Vx, Vy: the y field is encoded but not read (R151). -/
  | shl (x y : Reg)
  /-- 9XY0, SNE Vx, Vy (R126). -/
  | sneReg (x y : Reg)
  /-- ANNN, LD I, nnn (R170). -/
  | ldI (nnn : Addr)
  /-- BNNN, JP V0, nnn (R127). -/
  | jpV0 (nnn : Addr)
  /-- CXNN, RND Vx, nn (R152). -/
  | rnd (x : Reg) (nn : Byte)
  /-- DXYN, DRW Vx, Vy, n (R101). -/
  | drw (x y : Reg) (n : Fin 16)
  /-- EX9E, SKP Vx (R190). -/
  | skp (x : Reg)
  /-- EXA1, SKNP Vx (R191). -/
  | sknp (x : Reg)
  /-- FX0A, LD Vx, K (R192). -/
  | ldVxK (x : Reg)
  /-- FX07, LD Vx, DT (R193). -/
  | ldVxDt (x : Reg)
  /-- FX15, LD DT, Vx (R194). -/
  | ldDtVx (x : Reg)
  /-- FX18, LD ST, Vx (R195). -/
  | ldStVx (x : Reg)
  /-- FX1E, ADD I, Vx (R171). -/
  | addI (x : Reg)
  /-- FX29, LD F, Vx (R172). -/
  | ldF (x : Reg)
  /-- FX33, LD B, Vx (R173). -/
  | ldB (x : Reg)
  /-- FX55, LD [I], Vx (R174). -/
  | dump (x : Reg)
  /-- FX65, LD Vx, [I] (R175). -/
  | load (x : Reg)
  deriving DecidableEq, Repr

/-- The row of spec/opcode_table.json that the instruction stands for, by its mnemonic there. -/
def Instr.mnemonic : Instr → String
  | .cls => "CLS"
  | .ret => "RET"
  | .jp _ => "JP_nnn"
  | .call _ => "CALL_nnn"
  | .seImm _ _ => "SE_Vx__nn"
  | .sneImm _ _ => "SNE_Vx__nn"
  | .seReg _ _ => "SE_Vx__Vy"
  | .ldImm _ _ => "LD_Vx__nn"
  | .addImm _ _ => "ADD_Vx__nn"
  | .ldReg _ _ => "LD_Vx__Vy"
  | .orReg _ _ => "OR_Vx__Vy"
  | .andReg _ _ => "AND_Vx__Vy"
  | .xorReg _ _ => "XOR_Vx__Vy"
  | .addReg _ _ => "ADD_Vx__Vy"
  | .subReg _ _ => "SUB_Vx__Vy"
  | .shr _ _ => "SHR_Vx__Vy"
  | .subnReg _ _ => "SUBN_Vx__Vy"
  | .shl _ _ => "SHL_Vx__Vy"
  | .sneReg _ _ => "SNE_Vx__Vy"
  | .ldI _ => "LD_I__nnn"
  | .jpV0 _ => "JP_V0__nnn"
  | .rnd _ _ => "RND_Vx__nn"
  | .drw _ _ _ => "DRW_Vx__Vy__n"
  | .skp _ => "SKP_Vx"
  | .sknp _ => "SKNP_Vx"
  | .ldVxK _ => "LD_Vx__K"
  | .ldVxDt _ => "LD_Vx__DT"
  | .ldDtVx _ => "LD_DT__Vx"
  | .ldStVx _ => "LD_ST__Vx"
  | .addI _ => "ADD_I__Vx"
  | .ldF _ => "LD_F__Vx"
  | .ldB _ => "LD_B__Vx"
  | .dump _ => "LD__I___Vx"
  | .load _ => "LD_Vx___I"

end Sys2Proof
end

