-- ==== Sys2Proof/WellFormed.lean ====
section
/-! DEFINITION. What a well-formed instruction and a well-formed ROM are. The operand ranges are those of
30_encoding.md R71, R73 and R79; the ROM's bound is that of 20_memory.md R58. Which WORDS are instructions
is the decoder's matter (Decode.lean). -/

namespace Sys2Proof

/-- A register operand names one of V0 to VF (R21, R79). -/
def regFits (x : Nat) : Bool := x < 16

/-- A height n is a nibble (R73, R79). -/
def heightFits (n : Nat) : Bool := n < 16

/-- A byte immediate nn is 0x00 to 0xFF (R73, R79). -/
def byteFits (nn : Nat) : Bool := nn < 256

/-- An address immediate nnn is 0x000 to 0xFFF (R73, R79). -/
def addrFits (nnn : Nat) : Bool := nnn < 4096

/-- Every operand of the instruction is in the range R79 gives it. The operand types of `Instr` already
say so, hence every term is well-formed (`Instr.wellFormed_all`): no statement needs this as a hypothesis. -/
def Instr.wellFormed : Instr → Bool
  | .cls => true
  | .ret => true
  | .jp nnn => addrFits nnn.toNat
  | .call nnn => addrFits nnn.toNat
  | .seImm x nn => regFits x && byteFits nn.toNat
  | .sneImm x nn => regFits x && byteFits nn.toNat
  | .seReg x y => regFits x && regFits y
  | .ldImm x nn => regFits x && byteFits nn.toNat
  | .addImm x nn => regFits x && byteFits nn.toNat
  | .ldReg x y => regFits x && regFits y
  | .orReg x y => regFits x && regFits y
  | .andReg x y => regFits x && regFits y
  | .xorReg x y => regFits x && regFits y
  | .addReg x y => regFits x && regFits y
  | .subReg x y => regFits x && regFits y
  | .shr x y => regFits x && regFits y
  | .subnReg x y => regFits x && regFits y
  | .shl x y => regFits x && regFits y
  | .sneReg x y => regFits x && regFits y
  | .ldI nnn => addrFits nnn.toNat
  | .jpV0 nnn => addrFits nnn.toNat
  | .rnd x nn => regFits x && byteFits nn.toNat
  | .drw x y n => regFits x && regFits y && heightFits n
  | .skp x => regFits x
  | .sknp x => regFits x
  | .ldVxK x => regFits x
  | .ldVxDt x => regFits x
  | .ldDtVx x => regFits x
  | .ldStVx x => regFits x
  | .addI x => regFits x
  | .ldF x => regFits x
  | .ldB x => regFits x
  | .dump x => regFits x
  | .load x => regFits x

/-- A ROM is well-formed when the program region holds it: at most 3584 bytes (R58). -/
def romWellFormed (rom : List Byte) : Bool := rom.length ≤ Config.romMax

end Sys2Proof
end

