-- ==== Sys2Proof/Decode.lean ====
section
/-! DEFINITION. Decoding and encoding: the fields of a word (30_encoding.md R71), the decoder's dispatch (R74),
the rows of the opcode map (R75), the rejection of every other word by name (R77, R78), and the encoder (R72, R73). -/

namespace Sys2Proof

/-- The slice `w[hi:lo]`, "the unsigned number formed by bits hi down to lo inclusive" (R6). -/
def slice (w : Word) (hi lo : Nat) : Nat := w.toNat / 2 ^ lo % 2 ^ (hi + 1 - lo)

/-- The field op, the high nibble (R71). -/
def opField (w : Word) : Nat := slice w 15 12

/-- The field x, the first register index (R71). -/
def xField (w : Word) : Reg := ⟨slice w 11 8, Nat.mod_lt _ (by decide)⟩

/-- The field y, the second register index (R71). -/
def yField (w : Word) : Reg := ⟨slice w 7 4, Nat.mod_lt _ (by decide)⟩

/-- The field n, sprite height or sub-op selector (R71). -/
def nField (w : Word) : Fin 16 := ⟨slice w 3 0, Nat.mod_lt _ (by decide)⟩

/-- The field nn, byte immediate or sub-op selector (R71). -/
def nnField (w : Word) : Byte := BitVec.ofNat 8 (slice w 7 0)

/-- The field nnn, the address immediate (R71). -/
def nnnField (w : Word) : Addr := BitVec.ofNat 12 (slice w 11 0)

/-- Op 0x0: the whole word selects (R74 step 2). -/
def decodeOp0 (w : Word) : Option Instr :=
  if w = 0x00E0 then some .cls
  else if w = 0x00EE then some .ret
  else none

/-- Op 0x8: the nibble n selects the sub-operation (R74 step 4). -/
def decodeOp8 (w : Word) : Option Instr :=
  let x := xField w
  let y := yField w
  match nField w with
  | 0x0 => some (.ldReg x y)
  | 0x1 => some (.orReg x y)
  | 0x2 => some (.andReg x y)
  | 0x3 => some (.xorReg x y)
  | 0x4 => some (.addReg x y)
  | 0x5 => some (.subReg x y)
  | 0x6 => some (.shr x y)
  | 0x7 => some (.subnReg x y)
  | 0xE => some (.shl x y)
  | _ => none

/-- Op 0xE: the byte nn selects the sub-operation (R74 step 5). -/
def decodeOpE (w : Word) : Option Instr :=
  if nnField w = 0x9E then some (.skp (xField w))
  else if nnField w = 0xA1 then some (.sknp (xField w))
  else none

/-- Op 0xF: the byte nn selects the sub-operation (R74 step 5). -/
def decodeOpF (w : Word) : Option Instr :=
  let x := xField w
  if nnField w = 0x07 then some (.ldVxDt x)
  else if nnField w = 0x0A then some (.ldVxK x)
  else if nnField w = 0x15 then some (.ldDtVx x)
  else if nnField w = 0x18 then some (.ldStVx x)
  else if nnField w = 0x1E then some (.addI x)
  else if nnField w = 0x29 then some (.ldF x)
  else if nnField w = 0x33 then some (.ldB x)
  else if nnField w = 0x55 then some (.dump x)
  else if nnField w = 0x65 then some (.load x)
  else none

/-- The instruction a word selects, by op first (R74), or none where it selects no row of R75 (R77).
Decoding is "a pure function of the 16-bit word" (R74, 90_conflicts.md C8) and strict: every bit under a
row's mask must match (R77). -/
def decodeWord (w : Word) : Option Instr :=
  match opField w with
  | 0x0 => decodeOp0 w
  | 0x1 => some (.jp (nnnField w))
  | 0x2 => some (.call (nnnField w))
  | 0x3 => some (.seImm (xField w) (nnField w))
  | 0x4 => some (.sneImm (xField w) (nnField w))
  | 0x5 => if nField w = 0 then some (.seReg (xField w) (yField w)) else none
  | 0x6 => some (.ldImm (xField w) (nnField w))
  | 0x7 => some (.addImm (xField w) (nnField w))
  | 0x8 => decodeOp8 w
  | 0x9 => if nField w = 0 then some (.sneReg (xField w) (yField w)) else none
  | 0xA => some (.ldI (nnnField w))
  | 0xB => some (.jpV0 (nnnField w))
  | 0xC => some (.rnd (xField w) (nnField w))
  | 0xD => some (.drw (xField w) (yField w) (nField w))
  | 0xE => decodeOpE w
  | 0xF => decodeOpF w
  | _ => none

/-- Why a sequence of bytes is no instruction. -/
inductive DecodeRejection where
  /-- The word selects no row of the opcode map (R77, R78). -/
  | unsupported (w : Word)
  /-- Fewer than the two bytes of a word (R70: there is one length). -/
  | tooShort
  deriving DecidableEq, Repr

/-- The instruction at the head of a byte sequence, and the bytes after it. The first byte is the high
byte of the word (R55, R70). Total: any other sequence is rejected by name. -/
def decode : List Byte → Except DecodeRejection (Instr × List Byte)
  | hi :: lo :: rest =>
    match decodeWord (bytePair hi lo) with
    | some i => .ok (i, rest)
    | none => .error (.unsupported (bytePair hi lo))
  | _ => .error .tooShort

/-- Format NNN of R72: op and a 12-bit address. -/
def formNNN (op : Nat) (nnn : Addr) : Word := BitVec.ofNat 16 (op * 0x1000 + nnn.toNat)

/-- Format XNN of R72: op, a register and a byte. -/
def formXNN (op : Nat) (x : Reg) (nn : Byte) : Word :=
  BitVec.ofNat 16 (op * 0x1000 + x * 0x100 + nn.toNat)

/-- Formats XY0 and XYN of R72: op, two registers and a nibble. -/
def formXYN (op : Nat) (x y : Reg) (n : Fin 16) : Word :=
  BitVec.ofNat 16 (op * 0x1000 + x * 0x100 + y * 0x10 + n)

/-- The word of an instruction, from the formats of R72 and the fixed bits of R75. -/
def encodeWord : Instr → Word
  | .cls => 0x00E0
  | .ret => 0x00EE
  | .jp nnn => formNNN 0x1 nnn
  | .call nnn => formNNN 0x2 nnn
  | .seImm x nn => formXNN 0x3 x nn
  | .sneImm x nn => formXNN 0x4 x nn
  | .seReg x y => formXYN 0x5 x y 0x0
  | .ldImm x nn => formXNN 0x6 x nn
  | .addImm x nn => formXNN 0x7 x nn
  | .ldReg x y => formXYN 0x8 x y 0x0
  | .orReg x y => formXYN 0x8 x y 0x1
  | .andReg x y => formXYN 0x8 x y 0x2
  | .xorReg x y => formXYN 0x8 x y 0x3
  | .addReg x y => formXYN 0x8 x y 0x4
  | .subReg x y => formXYN 0x8 x y 0x5
  | .shr x y => formXYN 0x8 x y 0x6
  | .subnReg x y => formXYN 0x8 x y 0x7
  | .shl x y => formXYN 0x8 x y 0xE
  | .sneReg x y => formXYN 0x9 x y 0x0
  | .ldI nnn => formNNN 0xA nnn
  | .jpV0 nnn => formNNN 0xB nnn
  | .rnd x nn => formXNN 0xC x nn
  | .drw x y n => formXYN 0xD x y n
  | .skp x => formXNN 0xE x 0x9E
  | .sknp x => formXNN 0xE x 0xA1
  | .ldVxK x => formXNN 0xF x 0x0A
  | .ldVxDt x => formXNN 0xF x 0x07
  | .ldDtVx x => formXNN 0xF x 0x15
  | .ldStVx x => formXNN 0xF x 0x18
  | .addI x => formXNN 0xF x 0x1E
  | .ldF x => formXNN 0xF x 0x29
  | .ldB x => formXNN 0xF x 0x33
  | .dump x => formXNN 0xF x 0x55
  | .load x => formXNN 0xF x 0x65

/-- The high byte of a word, stored at the lower address (R55). -/
def highByte (w : Word) : Byte := BitVec.ofNat 8 (slice w 15 8)

/-- The low byte of a word, stored at the higher address (R55). -/
def lowByte (w : Word) : Byte := BitVec.ofNat 8 (slice w 7 0)

/-- A word as the two bytes it occupies in memory, big-endian (R55, R70). -/
def wordBytes (w : Word) : List Byte := [highByte w, lowByte w]

/-- The bytes of an instruction: one big-endian word (R70). -/
def encode (i : Instr) : List Byte := wordBytes (encodeWord i)

/-- One row of the opcode map of R75: a word selects it when `(w & mask) == fixed`. -/
structure OpcodeRow where
  /-- The row's mnemonic in spec/opcode_table.json. -/
  mnemonic : String
  /-- The bits the row fixes; the table's column is named match. -/
  fixed : Word
  /-- Which bits those are. -/
  mask : Word
  deriving DecidableEq, Repr

/-- The row is selected by the word (R75). -/
def OpcodeRow.selects (r : OpcodeRow) (w : Word) : Bool := w &&& r.mask == r.fixed

/-- Rows 1 to 9 of R75. -/
def opcodeRowsLow : List OpcodeRow :=
  [⟨"CLS", 0x00E0, 0xFFFF⟩, ⟨"RET", 0x00EE, 0xFFFF⟩, ⟨"JP_nnn", 0x1000, 0xF000⟩,
   ⟨"CALL_nnn", 0x2000, 0xF000⟩, ⟨"SE_Vx__nn", 0x3000, 0xF000⟩, ⟨"SNE_Vx__nn", 0x4000, 0xF000⟩,
   ⟨"SE_Vx__Vy", 0x5000, 0xF00F⟩, ⟨"LD_Vx__nn", 0x6000, 0xF000⟩, ⟨"ADD_Vx__nn", 0x7000, 0xF000⟩]

/-- Rows 10 to 18 of R75, the register ALU family. -/
def opcodeRowsAlu : List OpcodeRow :=
  [⟨"LD_Vx__Vy", 0x8000, 0xF00F⟩, ⟨"OR_Vx__Vy", 0x8001, 0xF00F⟩, ⟨"AND_Vx__Vy", 0x8002, 0xF00F⟩,
   ⟨"XOR_Vx__Vy", 0x8003, 0xF00F⟩, ⟨"ADD_Vx__Vy", 0x8004, 0xF00F⟩, ⟨"SUB_Vx__Vy", 0x8005, 0xF00F⟩,
   ⟨"SHR_Vx__Vy", 0x8006, 0xF00F⟩, ⟨"SUBN_Vx__Vy", 0x8007, 0xF00F⟩, ⟨"SHL_Vx__Vy", 0x800E, 0xF00F⟩]

/-- Rows 19 to 34 of R75. -/
def opcodeRowsHigh : List OpcodeRow :=
  [⟨"SNE_Vx__Vy", 0x9000, 0xF00F⟩, ⟨"LD_I__nnn", 0xA000, 0xF000⟩, ⟨"JP_V0__nnn", 0xB000, 0xF000⟩,
   ⟨"RND_Vx__nn", 0xC000, 0xF000⟩, ⟨"DRW_Vx__Vy__n", 0xD000, 0xF000⟩, ⟨"SKP_Vx", 0xE09E, 0xF0FF⟩,
   ⟨"SKNP_Vx", 0xE0A1, 0xF0FF⟩, ⟨"LD_Vx__K", 0xF00A, 0xF0FF⟩, ⟨"LD_Vx__DT", 0xF007, 0xF0FF⟩,
   ⟨"LD_DT__Vx", 0xF015, 0xF0FF⟩, ⟨"LD_ST__Vx", 0xF018, 0xF0FF⟩, ⟨"ADD_I__Vx", 0xF01E, 0xF0FF⟩,
   ⟨"LD_F__Vx", 0xF029, 0xF0FF⟩, ⟨"LD_B__Vx", 0xF033, 0xF0FF⟩, ⟨"LD__I___Vx", 0xF055, 0xF0FF⟩,
   ⟨"LD_Vx___I", 0xF065, 0xF0FF⟩]

/-- The opcode map of R75 as the spec prints it. The decoder does not use it; a statement says that
the decoder's dispatch (R74) and this table agree on every word. -/
def opcodeRows : List OpcodeRow := opcodeRowsLow ++ (opcodeRowsAlu ++ opcodeRowsHigh)

/-- The mnemonic of the row a word selects, if it selects one (R75). -/
def rowOf (w : Word) : Option String := (opcodeRows.find? (·.selects w)).map (·.mnemonic)

/-- The instruction the decoder reads from a table row's word: `w`'s lowest `nbits` bits, every bit
above them 0, laid out in memory order (the high byte first) and given to `decode`. -/
def decodeTableWord (nbits w : Nat) : Option Instr :=
  match decode (wordBytes (BitVec.ofNat 16 (w % 2 ^ nbits))) with
  | .ok (i, _) => some i
  | .error _ => none

end Sys2Proof
end

