-- ==== Sys2Proof/Machine/State.lean ====
section
/-! DEFINITION. The state of the core (10_state.md R20 to R37), the inputs it is given (R34, R35), the errors a
step or a load can return (60_exceptions.md R210), the refusals (70_reset_and_hazards.md R242), and the state after
construction (R240). -/

namespace Sys2Proof.Machine

/-- The general registers V0 to VF (R21). -/
abbrev Regs := Vector Byte 16

/-- The framebuffer's cells: 32 rows, top row first, of 64 cells, left cell first (R31). -/
abbrev Framebuffer := Vector (Vector Bool 64) 32

/-- The memory (R33, R50): the bytes that differ from what construction leaves (R59), by rising address. -/
abbrev Memory := List Host.Cell

/-- The errors (R210), and nothing else: the taxonomy is closed. Each is a result value that leaves the
state as it was (R9, R217), so a fault carries no state. -/
inductive Fault where
  /-- Raised by a step whose fetched word selects no instruction (R77, R211). Safe: the spec names the error. -/
  | unsupportedOpcode (word pc : Word)
  /-- Raised by CALL when the stack holds 16 entries (R122, R212). Safe: the spec names the error. -/
  | stackOverflow (pc : Word)
  /-- Raised by RET when the stack is empty (R120, R213). Safe: the spec names the error. -/
  | stackUnderflow (pc : Word)
  /-- Raised by a fetch and by DXYN, FX33, FX55 and FX65 on the first byte address of 4096 or more, an unbounded
  natural number (R51 to R53, R214). Safe: the spec names the error. -/
  | addressOutOfRange (addr : Nat) (pc : Word)
  /-- Raised by `load_program` on a ROM of more than 3584 bytes (R215, R241). Safe: the spec names the error. -/
  | romTooLarge (len : Nat)
  /-- Raised by EX9E and EXA1 on a key index of 16 or more (R196, R216). Safe: the spec's own error, chosen
  so that the model has no run where the hardware might have one (D9). -/
  | keyIndexOutOfRange (v : Byte) (pc : Word)
  deriving DecidableEq, Repr

/-- The numeric codes of the errors (R210). -/
def Fault.code : Fault → Nat
  | .unsupportedOpcode _ _ => 1
  | .stackOverflow _ => 2
  | .stackUnderflow _ => 3
  | .addressOutOfRange _ _ => 4
  | .romTooLarge _ => 5
  | .keyIndexOutOfRange _ _ => 6

/-- What the model refuses: host moves outside the modelled interface (R242), and an instruction without a meaning. -/
inductive Refusal where
  /-- Raised by `exec` for an instruction that has no meaning yet. No arm raises it: every instruction has one. Safe. -/
  | notModelled (mnemonic : String)
  /-- Raised by a step before a successful `load_program` (R227, R242). Safe: the spec gives it no meaning. -/
  | stepBeforeLoad
  /-- Raised by a second `load_program` (R242). Safe: the spec gives it no meaning. -/
  | secondLoad
  deriving DecidableEq, Repr

/-- The state. The fields up to `dirty` are the tuple of R20; the rest are the model's own. -/
structure State where
  /-- `mem[0..4095]` (R33, R50). -/
  mem : Memory
  /-- `V[0..15]` (R21). -/
  v : Regs
  /-- `I`, all 16 bits of it (R24). -/
  i : Word
  /-- `pc`, the address of the instruction being executed (R25). -/
  pc : Word
  /-- `stack[0..15]` (R28). -/
  stack : Vector Word 16
  /-- `sp`, 0 to 16 (R28). -/
  sp : Fin 17
  /-- `DT` (R29). -/
  dt : Byte
  /-- `ST` (R30). -/
  st : Byte
  /-- `Fb[0..31][0..63]` (R31). -/
  fb : Framebuffer
  /-- `dirty` (R32). -/
  dirty : Bool
  /-- The model's own (log 2): the keypad snapshot given to the next step, bit k for key k (R34). -/
  keys : BitVec 16
  /-- The model's own (log 2): the random byte given to the next step (R35). -/
  rand : Byte
  /-- The model's own (log 1): what the host will do after each of the next steps, the next turn first.
  After the list's end the host's turns are free. -/
  schedule : List Config.HostTurn
  /-- The model's own (log 1): how many turns the host has had, the index of the free turns. -/
  turn : Nat
  /-- The model's own (log 3): whether a `load_program` has succeeded (R227, R242). -/
  loaded : Bool
  /-- The model's own (log 4): the parameter VF_WRITE_ORDER (R5, R142). No step changes it. -/
  vfOrder : Config.VfWriteOrder
  deriving DecidableEq, Repr

/-- The state after construction (R240). Memory lists nothing, so every byte is what R59 gives. The keypad
snapshot and the random byte of the first step are free values (log 2), and VF_WRITE_ORDER is the spec's value (R142). -/
def State.reset : State where
  mem := []
  v := Vector.replicate 16 0
  i := 0x0000
  pc := 0x0200
  stack := Vector.replicate 16 0
  sp := 0
  dt := 0
  st := 0
  fb := Vector.replicate 32 (Vector.replicate 64 false)
  dirty := false
  keys := (Config.freeTurn 0).keys
  rand := (Config.freeTurn 0).rand
  schedule := []
  turn := 0
  loaded := false
  vfOrder := .flagLast

end Sys2Proof.Machine
end

