-- ==== Sys2Proof/Machine/Ops.lean ====
section
/-! DEFINITION. The operations that the meanings share: memory and its contents at construction (20_memory.md),
the register file, `pc`, the call stack, the framebuffer, fetching, and raising an error (00_scope.md R9;
60_exceptions.md R217), which is this core's only exception. -/

namespace Sys2Proof.Machine

/-! ### Memory -/

/-- Glyphs 0 to 7, five bytes each, top row first (R60). -/
def glyphsLow : List Byte :=
  [0xF0, 0x90, 0x90, 0x90, 0xF0] ++ ([0x20, 0x60, 0x20, 0x20, 0x70] ++
  ([0xF0, 0x10, 0xF0, 0x80, 0xF0] ++ ([0xF0, 0x10, 0xF0, 0x10, 0xF0] ++
  ([0x90, 0x90, 0xF0, 0x10, 0x10] ++ ([0xF0, 0x80, 0xF0, 0x10, 0xF0] ++
  ([0xF0, 0x80, 0xF0, 0x90, 0xF0] ++ [0xF0, 0x10, 0x20, 0x40, 0x40]))))))

/-- Glyphs 8 to F, five bytes each, top row first (R60). -/
def glyphsHigh : List Byte :=
  [0xF0, 0x90, 0xF0, 0x90, 0xF0] ++ ([0xF0, 0x90, 0xF0, 0x10, 0xF0] ++
  ([0xF0, 0x90, 0xF0, 0x90, 0x90] ++ ([0xE0, 0x90, 0xE0, 0x90, 0xE0] ++
  ([0xF0, 0x80, 0x80, 0x80, 0xF0] ++ ([0xE0, 0x90, 0x90, 0x90, 0xE0] ++
  ([0xF0, 0x80, 0xF0, 0x80, 0xF0] ++ [0xF0, 0x80, 0xF0, 0x80, 0x80]))))))

/-- GLYPHS, the 80 bytes of the glyph table, "taken as a named constant" (R60, D29). -/
def glyphs : List Byte := glyphsLow ++ glyphsHigh

/-- What an address reads as that memory does not list: its byte at construction, the glyph table at
0x050 to 0x09F and 0x00 elsewhere (R59, D11). -/
def initialByte (a : Nat) : Byte :=
  if a < Config.glyphBase then 0 else glyphs.getD (a - Config.glyphBase) 0

/-- The byte at an address, as memory holds it (R50). -/
def Memory.read : Memory → Nat → Byte
  | [], a => initialByte a
  | (k, b) :: m, a => if k = a then b else Memory.read m a

/-- A cell put at its place among the rising addresses. -/
def Memory.insert : Memory → Nat → Byte → Memory
  | [], a, b => [(a, b)]
  | (k, c) :: m, a, b => if a < k then (a, b) :: (k, c) :: m else (k, c) :: Memory.insert m a b

/-- Memory without a cell for the address. -/
def Memory.erase (m : Memory) (a : Nat) : Memory := m.filter (fun c => c.1 ≠ a)

/-- Memory with the byte at an address replaced (R52, R54). A byte equal to that of construction is not listed. -/
def Memory.write (m : Memory) (a : Nat) (b : Byte) : Memory :=
  if b = initialByte a then m.erase a else (m.erase a).insert a b

/-- The canonical form: addresses rise strictly, lie in the address space (R50), and no cell holds what
its address reads as unlisted. -/
abbrev Memory.wf (m : Memory) : Prop :=
  m.Pairwise (fun c d => c.1 < d.1) ∧ ∀ c ∈ m, c.1 < Config.memSize ∧ c.2 ≠ initialByte c.1

/-- `MemRead(addr, 1)` (R51). The address is an unbounded natural number: nothing wraps (R53). -/
def memRead (s : State) (a : Nat) : Except Fault Byte :=
  if a < Config.memSize then .ok (s.mem.read a) else .error (.addressOutOfRange a s.pc)

/-- `MemRead` of n consecutive rising addresses, the first failing address reported (R54, R218). -/
def memReadMany (s : State) : Nat → Nat → Except Fault (List Byte)
  | _, 0 => .ok []
  | a, n + 1 =>
    match memRead s a with
    | .error f => .error f
    | .ok b =>
      match memReadMany s (a + 1) n with
      | .error f => .error f
      | .ok bs => .ok (b :: bs)

/-- `MemWrite(addr, 1, v)` (R52), on the memory as the step's earlier writes left it. -/
def memWrite (pc : Word) (m : Memory) (a : Nat) (b : Byte) : Except Fault Memory :=
  if a < Config.memSize then .ok (m.write a b) else .error (.addressOutOfRange a pc)

/-- `MemWrite` to consecutive rising addresses. A raise discards the earlier writes (R9, R52): an error carries no memory. -/
def memWriteMany (pc : Word) : Memory → Nat → List Byte → Except Fault Memory
  | m, _, [] => .ok m
  | m, a, b :: bs =>
    match memWrite pc m a b with
    | .error f => .error f
    | .ok m' => memWriteMany pc m' (a + 1) bs

/-- Bytes written to consecutive rising addresses, with no bound: the caller has checked it (R241). -/
def Memory.writeAll : Memory → Nat → List Byte → Memory
  | m, _, [] => m
  | m, a, b :: bs => Memory.writeAll (m.write a b) (a + 1) bs

/-- `Fetch(pc)`: the byte at `pc` is the high byte, the byte at `pc + 1` the low one (R55). No
alignment applies (R27, R56). -/
def fetch (s : State) : Except Fault Word :=
  match memRead s s.pc.toNat with
  | .error f => .error f
  | .ok hi =>
    match memRead s (s.pc.toNat + 1) with
    | .error f => .error f
    | .ok lo => .ok (bytePair hi lo)

/-! ### Ending a step -/

/-- The end of a step: the next state, or `raise E(info)`, which "ends the current step at once" and
"changes no state" (R9, R217). This is the core's whole entry of an exception: no vector, no saved pc, no mode (R217). -/
def finish : Except Fault State → Host.Outcome State Fault Refusal
  | .ok t => .next t
  | .error f => .fault f

/-- `raise E(info)` (R9). -/
def raise (f : Fault) : Host.Outcome State Fault Refusal := finish (.error f)

/-! ### Registers -/

/-- `V[x]` (R8, R21). -/
def State.getV (s : State) (x : Reg) : Byte := s.v[x.val]

/-- `V[x] <- b` (R8, R21). -/
def State.setV (s : State) (x : Reg) (b : Byte) : State := { s with v := s.v.set x.val b }

/-- `V[k] <- bs[k]` for each k that `bs` has (R175). -/
def loadRegs (v : Regs) (bs : List Byte) : Regs := Vector.ofFn fun k => bs.getD k.val v[k.val]

/-- `I <- w` (R8, R24). -/
def State.setI (s : State) (w : Word) : State := { s with i := w }

/-- `pc <- w` (R8, R25). -/
def State.setPc (s : State) (w : Word) : State := { s with pc := w }

/-- `pc <- pc + 2`, the default (R25). In 16 bits; log 5 says why it cannot wrap in a run. -/
def State.advance (s : State) : State := s.setPc (s.pc + 2)

/-- `pc <- pc + 4` if the skip's condition holds, else `pc <- pc + 2` (R25, R128). -/
def State.skipIf (s : State) (c : Bool) : State := s.setPc (if c then s.pc + 4 else s.pc + 2)

/-- `DT <- b` (R29). -/
def State.setDt (s : State) (b : Byte) : State := { s with dt := b }

/-- `ST <- b` (R30). -/
def State.setSt (s : State) (b : Byte) : State := { s with st := b }

/-- Memory replaced by what the step's writes made of it (R10). -/
def State.setMem (s : State) (m : Memory) : State := { s with mem := m }

/-! ### The call stack -/

/-- A push: `stack[sp] <- w; sp <- sp + 1`, or StackOverflow at `sp == 16` (R28). -/
def State.push (s : State) (w : Word) : Except Fault State :=
  if h : s.sp.val < 16 then
    .ok { s with stack := s.stack.set s.sp.val w, sp := ⟨s.sp.val + 1, Nat.succ_lt_succ h⟩ }
  else .error (.stackOverflow s.pc)

/-- A pop: `sp <- sp - 1` and the entry `stack[sp]` at the new sp, or StackUnderflow at `sp == 0`.
"A pop leaves the popped entry's content in place" (R28). -/
def State.pop (s : State) : Except Fault (Word × State) :=
  if h : s.sp.val = 0 then .error (.stackUnderflow s.pc)
  else
    .ok (s.stack[s.sp.val - 1]'(by have := s.sp.isLt; omega),
      { s with sp := ⟨s.sp.val - 1, by have := s.sp.isLt; omega⟩ })

/-! ### The framebuffer -/

/-- `Fb[r][c]` (R31). -/
def Framebuffer.cell (fb : Framebuffer) (r : Fin 32) (c : Fin 64) : Bool := fb[r.val][c.val]

/-- `Fb[r][c] <- b` (R31). -/
def Framebuffer.setCell (fb : Framebuffer) (r : Fin 32) (c : Fin 64) (b : Bool) : Framebuffer :=
  fb.set r.val (fb[r.val].set c.val b)

/-- The primitive `clear()`: every cell 0 (R100, R102). -/
def Framebuffer.cleared : Framebuffer := Vector.replicate 32 (Vector.replicate 64 false)

/-- The primitive `xor_pixel(r, c)`: the previous value of the cell, and the cells with it inverted (R102). -/
def Framebuffer.xorPixel (fb : Framebuffer) (r : Fin 32) (c : Fin 64) : Bool × Framebuffer :=
  (fb.cell r c, fb.setCell r c (!fb.cell r c))

/-- The cells that the set bits of one sprite row address, leftmost first: bit 7 - col is column col, and
coordinates wrap mod 32 and mod 64 (R101). -/
def spriteRowCells (vx vy row : Nat) (b : Byte) : List (Fin 32 × Fin 64) :=
  (List.range Config.spriteWidth).filterMap fun col =>
    if b.getLsbD (7 - col) then some (Fin.ofNat 32 (vy + row), Fin.ofNat 64 (vx + col)) else none

/-- The cells that a sprite's set bits address, in the order of R101's loop; `row` numbers the first byte. -/
def spriteCells (vx vy : Nat) : Nat → List Byte → List (Fin 32 × Fin 64)
  | _, [] => []
  | row, b :: bs => spriteRowCells vx vy row b ++ spriteCells vx vy (row + 1) bs

/-- R101's loop over the cells of the set bits: each is inverted by `xor_pixel`, and the collision bit is
raised when it was set, "and only ever raised, never cleared". -/
def drawCells : List (Fin 32 × Fin 64) → Framebuffer → Bool → Framebuffer × Bool
  | [], fb, collision => (fb, collision)
  | (r, c) :: cells, fb, collision =>
    drawCells cells (fb.xorPixel r c).2 (collision || (fb.xorPixel r c).1)

/-- The framebuffer replaced and `dirty <- 1`, as CLS and DXYN do every time they complete (R32). -/
def State.setDisplay (s : State) (fb : Framebuffer) : State := { s with fb := fb, dirty := true }

end Sys2Proof.Machine
end

