-- ==== Sys2Proof/Machine/Operands.lean ====
section
/-! DEFINITION. The operand forms of the instructions: immediates (30_encoding.md R73), the effective addresses
`I + k` (20_memory.md R53), keys (44_keypad_timer.md R196, R192), a glyph's address (43_index_memory.md R172),
decimal digits (R173) and the register range V0 to Vx (R174, R175). -/

namespace Sys2Proof.Machine

/-- An address immediate nnn, "zero-extended to 16 bits where it is written" (R73). -/
def wideAddr (nnn : Addr) : Word := BitVec.ofNat 16 nnn.toNat

/-- A byte operand as a 16-bit value, zero-extended: all data is unsigned (R7). -/
def wideByte (b : Byte) : Word := BitVec.ofNat 16 b.toNat

/-- The effective address `I` of a data access, an unbounded natural number (R53). -/
def dataAddr (s : State) : Nat := s.i.toNat

/-- The target `nnn + V[0]` of BNNN, a 16-bit value "not reduced mod 4096" (R127). -/
def offsetTarget (s : State) (nnn : Addr) : Word := wideAddr nnn + wideByte (s.getV V0)

/-- The key that a register selects, or KeyIndexOutOfRange where its value is 16 or more (R196). -/
def keyLevel (s : State) (x : Reg) : Except Fault Bool :=
  if (s.getV x).toNat < Config.numKeys then .ok (s.keys.getLsbD (s.getV x).toNat)
  else .error (.keyIndexOutOfRange (s.getV x) s.pc)

/-- The lowest pressed key of a snapshot, if any key is pressed (R192). -/
def lowestKey (keys : BitVec 16) : Option (Fin 16) :=
  (List.finRange 16).find? fun k => keys.getLsbD k.val

/-- The address of the glyph a byte selects, `0x050 + v * 5`, of the full byte (R61, R172). -/
def glyphAddr (v : Byte) : Word := BitVec.ofNat 16 (Config.glyphBase + v.toNat * Config.glyphRows)

/-- The decimal digits of a byte, hundreds, tens and units (R173). -/
def bcdDigits (v : Byte) : List Byte :=
  [BitVec.ofNat 8 (v.toNat / 100), BitVec.ofNat 8 (v.toNat / 10 % 10), BitVec.ofNat 8 (v.toNat % 10)]

/-- How many registers the range V0 to Vx has (R174, R175). -/
def rangeCount (x : Reg) : Nat := x.val + 1

/-- The bytes of the registers V0 to Vx (R174). -/
def rangeBytes (s : State) (x : Reg) : List Byte := s.v.toList.take (rangeCount x)

end Sys2Proof.Machine
end

