-- ==== Sys2Proof/Machine/Flags.lean ====
section
/-! DEFINITION. The flag values that instructions leave in VF (10_state.md R22; 42_alu.md R147 to R151;
40_display.md R101) and the order in which a result and a flag are written (42_alu.md R142). -/

namespace Sys2Proof.Machine

/-- A flag as the byte VF receives: 1 or 0. -/
def flagByte (f : Bool) : Byte := if f then 1 else 0

/-- The carry out of bit 7 of an addition: 1 if the exact sum exceeds 255 (R147). -/
def carryFlag (a b : Byte) : Byte := flagByte (decide (a.toNat + b.toNat > 255))

/-- SUB's flag: 1 if `a > b`, strictly, "the source's formula" (R148, 90_conflicts.md C1). -/
def subFlag (a b : Byte) : Byte := flagByte (decide (a.toNat > b.toNat))

/-- SUBN's flag: 1 if `b >= a`, not strictly (R150, 90_conflicts.md C1). -/
def subnFlag (a b : Byte) : Byte := flagByte (decide (b.toNat ≥ a.toNat))

/-- SHR's flag: the least significant bit before the shift (R149). -/
def shrFlag (a : Byte) : Byte := flagByte (a.getLsbD 0)

/-- SHL's flag: the most significant bit before the shift (R151). -/
def shlFlag (a : Byte) : Byte := flagByte (a.getLsbD 7)

/-- `WriteResultAndFlag(r, f)` for the destination x, in the order VF_WRITE_ORDER gives (R142). -/
def writeResultAndFlag (s : State) (x : Reg) (r f : Byte) : State :=
  match s.vfOrder with
  | .flagLast => (s.setV x r).setV VF f
  | .resultLast => (s.setV VF f).setV x r

end Sys2Proof.Machine
end

