-- ==== Sys2Proof/Machine/Alu.lean ====
section
/-! DEFINITION. Register loads and the ALU: the immediate forms, the 8XY_ family and RND (42_alu.md R140 to R154).
All arithmetic is 8-bit, unsigned and wrapping (R153). -/

namespace Sys2Proof.Machine

/-- LD Vx, nn (R140). -/
def execLdImm (x : Reg) (nn : Byte) (s : State) : Host.Outcome State Fault Refusal :=
  .next (s.setV x nn).advance

/-- ADD Vx, nn: no flag (R141). -/
def execAddImm (x : Reg) (nn : Byte) (s : State) : Host.Outcome State Fault Refusal :=
  .next (s.setV x (s.getV x + nn)).advance

/-- LD Vx, Vy (R143). -/
def execLdReg (x y : Reg) (s : State) : Host.Outcome State Fault Refusal :=
  .next (s.setV x (s.getV y)).advance

/-- OR Vx, Vy: VF is not reset (R144, D5). -/
def execOrReg (x y : Reg) (s : State) : Host.Outcome State Fault Refusal :=
  .next (s.setV x (s.getV x ||| s.getV y)).advance

/-- AND Vx, Vy: VF is not reset (R145, D5). -/
def execAndReg (x y : Reg) (s : State) : Host.Outcome State Fault Refusal :=
  .next (s.setV x (s.getV x &&& s.getV y)).advance

/-- XOR Vx, Vy: VF is not reset (R146, D5). -/
def execXorReg (x y : Reg) (s : State) : Host.Outcome State Fault Refusal :=
  .next (s.setV x (s.getV x ^^^ s.getV y)).advance

/-- ADD Vx, Vy with the carry in VF (R147). -/
def execAddReg (x y : Reg) (s : State) : Host.Outcome State Fault Refusal :=
  .next (writeResultAndFlag s x (s.getV x + s.getV y) (carryFlag (s.getV x) (s.getV y))).advance

/-- SUB Vx, Vy with VF = 1 when V[x] > V[y] (R148). -/
def execSubReg (x y : Reg) (s : State) : Host.Outcome State Fault Refusal :=
  .next (writeResultAndFlag s x (s.getV x - s.getV y) (subFlag (s.getV x) (s.getV y))).advance

/-- SHR Vx, Vy: the shift source is V[x], and y is not read (R149). -/
def execShr (x _y : Reg) (s : State) : Host.Outcome State Fault Refusal :=
  .next (writeResultAndFlag s x (s.getV x >>> 1) (shrFlag (s.getV x))).advance

/-- SUBN Vx, Vy with VF = 1 when V[y] >= V[x] (R150). -/
def execSubnReg (x y : Reg) (s : State) : Host.Outcome State Fault Refusal :=
  .next (writeResultAndFlag s x (s.getV y - s.getV x) (subnFlag (s.getV x) (s.getV y))).advance

/-- SHL Vx, Vy: the shift source is V[x], and y is not read (R151). -/
def execShl (x _y : Reg) (s : State) : Host.Outcome State Fault Refusal :=
  .next (writeResultAndFlag s x (s.getV x <<< 1) (shlFlag (s.getV x))).advance

/-- RND Vx, nn: this step's random byte, masked (R35, R152). -/
def execRnd (x : Reg) (nn : Byte) (s : State) : Host.Outcome State Fault Refusal :=
  .next (s.setV x (s.rand &&& nn)).advance

end Sys2Proof.Machine
end

