-- ==== Sys2Proof/Machine/Control.lean ====
section
/-! DEFINITION. Control transfer: RET, JP, CALL, the four compare-and-skip instructions and JP V0
(41_control.md R120 to R130). -/

namespace Sys2Proof.Machine

/-- RET: pop the address of the CALL and go on after it (R120). -/
def execRet (s : State) : Host.Outcome State Fault Refusal :=
  finish (s.pop.map fun p => p.2.setPc (p.1 + 2))

/-- JP nnn (R121). -/
def execJp (nnn : Addr) (s : State) : Host.Outcome State Fault Refusal :=
  .next (s.setPc (wideAddr nnn))

/-- CALL nnn: push the address of this CALL, "not pc + 2" (R122). -/
def execCall (nnn : Addr) (s : State) : Host.Outcome State Fault Refusal :=
  finish ((s.push s.pc).map fun t => t.setPc (wideAddr nnn))

/-- SE Vx, nn (R123). -/
def execSeImm (x : Reg) (nn : Byte) (s : State) : Host.Outcome State Fault Refusal :=
  .next (s.skipIf (s.getV x == nn))

/-- SNE Vx, nn (R124). -/
def execSneImm (x : Reg) (nn : Byte) (s : State) : Host.Outcome State Fault Refusal :=
  .next (s.skipIf (s.getV x != nn))

/-- SE Vx, Vy (R125). -/
def execSeReg (x y : Reg) (s : State) : Host.Outcome State Fault Refusal :=
  .next (s.skipIf (s.getV x == s.getV y))

/-- SNE Vx, Vy (R126). -/
def execSneReg (x y : Reg) (s : State) : Host.Outcome State Fault Refusal :=
  .next (s.skipIf (s.getV x != s.getV y))

/-- JP V0, nnn: the offset register is always V0 (R127). -/
def execJpV0 (nnn : Addr) (s : State) : Host.Outcome State Fault Refusal :=
  .next (s.setPc (offsetTarget s nnn))

end Sys2Proof.Machine
end

