-- ==== Sys2Proof/Machine/Display.lean ====
section
/-! DEFINITION. The display instructions CLS and DRW (40_display.md R100 to R103). -/

namespace Sys2Proof.Machine

/-- CLS (R100). -/
def execCls (s : State) : Host.Outcome State Fault Refusal :=
  .next (s.setDisplay Framebuffer.cleared).advance

/-- DRW's writes, once the sprite's bytes are read: the cells, VF with the collision bit as the last
register write, `dirty` and `pc` (R101). -/
def drawSprite (s : State) (x y : Reg) (bytes : List Byte) : State :=
  let drawn := drawCells (spriteCells (s.getV x).toNat (s.getV y).toNat 0 bytes) s.fb false
  ((s.setDisplay drawn.1).setV VF (flagByte drawn.2)).advance

/-- DRW Vx, Vy, n: the n bytes at I are read first, then the sprite is drawn at the pre-state's
coordinates (R10, R101). -/
def execDrw (x y : Reg) (n : Fin 16) (s : State) : Host.Outcome State Fault Refusal :=
  finish ((memReadMany s (dataAddr s) n.val).map (drawSprite s x y))

end Sys2Proof.Machine
end

