-- ==== Sys2Proof/Machine/IndexMemory.lean ====
section
/-! DEFINITION. The index register and memory transfer: LD I, ADD I, LD F, LD B, LD [I], Vx and LD Vx, [I]
(43_index_memory.md R170 to R175). -/

namespace Sys2Proof.Machine

/-- LD I, nnn (R170). -/
def execLdI (nnn : Addr) (s : State) : Host.Outcome State Fault Refusal :=
  .next (s.setI (wideAddr nnn)).advance

/-- ADD I, Vx: mod 65536 and no flag (R171). -/
def execAddI (x : Reg) (s : State) : Host.Outcome State Fault Refusal :=
  .next (s.setI (s.i + wideByte (s.getV x))).advance

/-- LD F, Vx (R172). -/
def execLdF (x : Reg) (s : State) : Host.Outcome State Fault Refusal :=
  .next (s.setI (glyphAddr (s.getV x))).advance

/-- LD B, Vx: the three digits at I, I + 1 and I + 2, or no byte written (R173). -/
def execLdB (x : Reg) (s : State) : Host.Outcome State Fault Refusal :=
  finish ((memWriteMany s.pc s.mem (dataAddr s) (bcdDigits (s.getV x))).map fun m =>
    (s.setMem m).advance)

/-- LD [I], Vx: V0 to Vx stored from I on, I unchanged, or no byte written (R174). -/
def execDump (x : Reg) (s : State) : Host.Outcome State Fault Refusal :=
  finish ((memWriteMany s.pc s.mem (dataAddr s) (rangeBytes s x)).map fun m =>
    (s.setMem m).advance)

/-- `V[k] <- bs[k]` and `I <- (I + x + 1) mod 65536`, then `pc + 2` (R175). -/
def loadRange (s : State) (x : Reg) (bs : List Byte) : State :=
  ({ s with v := loadRegs s.v bs }.setI (s.i + BitVec.ofNat 16 (rangeCount x))).advance

/-- LD Vx, [I]: V0 to Vx loaded from I on, and I advanced past them (R175). -/
def execLoad (x : Reg) (s : State) : Host.Outcome State Fault Refusal :=
  finish ((memReadMany s (dataAddr s) (rangeCount x)).map (loadRange s x))

end Sys2Proof.Machine
end

