-- ==== Sys2Proof/Machine/KeypadTimer.lean ====
section
/-! DEFINITION. The keypad and timer instructions: SKP, SKNP, LD Vx, K, LD Vx, DT, LD DT, Vx and LD ST, Vx
(44_keypad_timer.md R190 to R196). -/

namespace Sys2Proof.Machine

/-- SKP Vx: skip if the selected key is pressed in this step's snapshot (R190, R196). -/
def execSkp (x : Reg) (s : State) : Host.Outcome State Fault Refusal :=
  finish ((keyLevel s x).map fun pressed => s.skipIf pressed)

/-- SKNP Vx: skip if the selected key is not pressed (R191, R196). -/
def execSknp (x : Reg) (s : State) : Host.Outcome State Fault Refusal :=
  finish ((keyLevel s x).map fun pressed => s.skipIf (!pressed))

/-- LD Vx, K: the lowest pressed key, or a completed step that changes nothing (R192, R247). -/
def execLdVxK (x : Reg) (s : State) : Host.Outcome State Fault Refusal :=
  .next (match lowestKey s.keys with
    | some k => (s.setV x (BitVec.ofNat 8 k.val)).advance
    | none => s)

/-- LD Vx, DT (R193). -/
def execLdVxDt (x : Reg) (s : State) : Host.Outcome State Fault Refusal :=
  .next (s.setV x s.dt).advance

/-- LD DT, Vx (R194). -/
def execLdDtVx (x : Reg) (s : State) : Host.Outcome State Fault Refusal :=
  .next (s.setDt (s.getV x)).advance

/-- LD ST, Vx (R195). -/
def execLdStVx (x : Reg) (s : State) : Host.Outcome State Fault Refusal :=
  .next (s.setSt (s.getV x)).advance

end Sys2Proof.Machine
end

