-- ==== Sys2Proof/Machine/HostOps.lean ====
section
/-! DEFINITION. The host's operations other than a step: the ROM load (70_reset_and_hazards.md R241, R242), the timer
tick, the tone, the framebuffer read and the dirty flag (60_exceptions.md R223 to R226), and a whole turn
of the host between two steps (R228, R229). -/

namespace Sys2Proof.Machine

/-- One tick of a timer: "decrements it by 1, floored at 0" (R29, R30, R223). -/
def tickDown (b : Byte) : Byte := if b.toNat > 0 then b - 1 else 0

/-- `tick_timers()` (R223). -/
def tickTimers (s : State) : State := { s with dt := tickDown s.dt, st := tickDown s.st }

/-- `clear_dirty()` (R226). -/
def clearDirty (s : State) : State := { s with dirty := false }

/-- `is_dirty()` (R32). -/
def isDirty (s : State) : Bool := s.dirty

/-- The tone output, `ST != 0` (R224). -/
def toneActive (s : State) : Bool := s.st != 0

/-- The framebuffer read: the cells row-major, cell (r, c) at place `r * 64 + c` (R31, R225). -/
def readFramebuffer (s : State) : List Bool := s.fb.flatten.toList

/-- `load_program(bytes)` (R241): too long a ROM is an error and writes nothing (R215), and a second load
is refused (R242). -/
def loadProgram (rom : List Byte) (s : State) : Host.Outcome State Fault Refusal :=
  if s.loaded then .refused .secondLoad
  else if romWellFormed rom then
    .next { s with mem := s.mem.writeAll Config.romBase rom, loaded := true }
  else raise (.romTooLarge rom.length)

/-- A timer after n ticks with none between: n down, floored at 0. -/
def countdown (n : Nat) (b : Byte) : Byte := BitVec.ofNat 8 (b.toNat - n)

/-- The host's next turn: the head of the schedule, or a free turn where the schedule has ended (log 1). -/
def nextTurn (s : State) : Config.HostTurn :=
  match s.schedule with
  | t :: _ => t
  | [] => Config.freeTurn (s.turn + 1)

/-- A turn of the host: its ticks, its clear of the dirty flag, and the inputs it gives the next step
(R34, R35, R223, R226, R229). -/
def applyTurn (t : Config.HostTurn) (s : State) : State :=
  { s with
    dt := countdown t.ticks s.dt
    st := countdown t.ticks s.st
    dirty := s.dirty && !t.clears
    keys := t.keys
    rand := t.rand }

/-- The host's turn after a step that completed. The turn is used up. -/
def hostTurn (s : State) : State :=
  { applyTurn (nextTurn s) s with schedule := s.schedule.tail, turn := s.turn + 1 }

end Sys2Proof.Machine
end

