-- ==== Sys2Proof/Machine/Fetch.lean ====
section
/-! DEFINITION. One `step()` of the core: fetch, decode, execute (60_exceptions.md R218, R225), and placing a word
where the next fetch reads. -/

namespace Sys2Proof.Machine

/-- The spec's `step()` with the inputs that stand in the state: before a load it is refused (R242); then the
fetch of pc and of pc + 1, the decoding, and the execution, the first error being the step's (R218). -/
def coreStep (s : State) : Host.Outcome State Fault Refusal :=
  if s.loaded then
    match fetch s with
    | .error f => raise f
    | .ok w =>
      match decodeWord w with
      | none => raise (.unsupportedOpcode w s.pc)
      | some i => exec i s
  else .refused .stepBeforeLoad

/-- The spec's `step(key, rand)`: the inputs given, then the step (R225). -/
def stepCall (keys : BitVec 16) (rand : Byte) (s : State) : Host.Outcome State Fault Refusal :=
  coreStep { s with keys := keys, rand := rand }

/-- The word stored big-endian where the next step fetches (R55), as a ROM load would leave it (R241). -/
def placeWord (s : State) (w : Word) : State :=
  { s with mem := s.mem.writeAll s.pc.toNat (wordBytes w), loaded := true }

end Sys2Proof.Machine
end

