-- ==== Sys2Proof/Machine/Step.lean ====
section
/-! DEFINITION. The step of the model: one `step()` of the core, then the host's turn up to the next one
(log 1). -/

namespace Sys2Proof.Machine

/-- One `step()` of the core (00_scope.md R10) and, where it completes, the turn of the host that
follows it (60_exceptions.md R229). The core itself never ticks a timer (90_conflicts.md C2): `coreStep` does not. -/
def step (s : State) : Host.Outcome State Fault Refusal :=
  match coreStep s with
  | .next t => .next (hostTurn t)
  | .fault f => .fault f
  | .refused r => .refused r

/-- The state with an opcode-table word stored where the step fetches its next instruction, the bits above
`nbits` zero, and the load of a program done (log 3). -/
def State.withFetchWord (s : State) (nbits w : Nat) : State :=
  placeWord s (BitVec.ofNat 16 (w % 2 ^ nbits))

end Sys2Proof.Machine
end

