-- ==== Sys2Proof/Machine/Interface.lean ====
section
/-! DEFINITION. The block's complete interface (60_exceptions.md R225) as operations on the state, in any order and
number (R228, R229), with the result each returns, and a run with every result it has returned so far. An error or a
refusal leaves the state as it was (R217). -/

namespace Sys2Proof.Machine

/-- An operation of the host (R225). Construction is `State.reset`. -/
inductive HostOp where
  /-- `load_program(bytes)` (R241). -/
  | loadProgram (rom : List Byte)
  /-- `step(key, rand)` (R10). -/
  | step (keys : BitVec 16) (rand : Byte)
  /-- `tick_timers()` (R223). -/
  | tickTimers
  /-- The framebuffer read (R31). -/
  | readFramebuffer
  /-- `is_dirty()` (R32). -/
  | isDirty
  /-- `clear_dirty()` (R226). -/
  | clearDirty
  /-- The tone read (R224). -/
  | readTone
  deriving DecidableEq, Repr

/-- What an operation returns to the host (R225). -/
inductive HostReply where
  /-- Ok, or nothing to return. -/
  | ok
  /-- The 64 by 32 bits of the framebuffer, row-major. -/
  | frame (cells : List Bool)
  /-- A flag: `is_dirty()` or the tone. -/
  | flag (b : Bool)
  /-- `Err(e)` (R217). -/
  | err (f : Fault)
  /-- A move outside the modelled interface (R242). -/
  | refused (r : Refusal)
  deriving DecidableEq, Repr

/-- An outcome as the host sees it: on an error "the state after Err is exactly the state before the operation" (R217). -/
def settle (s : State) : Host.Outcome State Fault Refusal → State × HostReply
  | .next t => (t, .ok)
  | .fault f => (s, .err f)
  | .refused r => (s, .refused r)

/-- One operation of the host, an atomic transaction (R225, R229). -/
def perform : HostOp → State → State × HostReply
  | .loadProgram rom, s => settle s (loadProgram rom s)
  | .step keys rand, s => settle s (stepCall keys rand s)
  | .tickTimers, s => (tickTimers s, .ok)
  | .readFramebuffer, s => (s, .frame (readFramebuffer s))
  | .isDirty, s => (s, .flag (isDirty s))
  | .clearDirty, s => (clearDirty s, .ok)
  | .readTone, s => (s, .flag (toneActive s))

/-- The state after a sequence of operations, in any interleaving (R229). -/
def performAll : List HostOp → State → State
  | [], s => s
  | op :: ops, s => performAll ops (perform op s).1

/-- A run of the host with the core: where it stands, and what has been asked and returned. The record is
no state of the core (R20): R244 speaks of what a run has returned. -/
structure Run where
  /-- The state after the operations of the log. -/
  state : State
  /-- Every operation so far with its reply, the latest first. -/
  log : List (HostOp × HostReply)
  deriving DecidableEq, Repr

/-- A run at its start: nothing has been asked yet. From construction it is `Run.startAt State.reset` (R240). -/
def Run.startAt (s : State) : Run := ⟨s, []⟩

/-- A run with one more operation, its reply recorded (R225). -/
def Run.next (r : Run) (op : HostOp) : Run :=
  ⟨(perform op r.state).1, (op, (perform op r.state).2) :: r.log⟩

/-- A run with more operations, the first of the list first (R229). -/
def Run.nextAll : Run → List HostOp → Run
  | r, [] => r
  | r, op :: ops => Run.nextAll (r.next op) ops

end Sys2Proof.Machine
end

