-- ==== Sys2Proof/Safety.lean ====
section
/-! DEFINITION. The terms that statements about the core are written in: what stays unchanged, what a result is, the
pixels of a sprite, the invariant of every run, and the end states of 70_reset_and_hazards.md R244. -/

namespace Sys2Proof.Machine

/-! ### What stays unchanged -/

/-- Every byte of memory reads as before. -/
def SameMemory (s t : State) : Prop := ∀ a, t.mem.read a = s.mem.read a

/-- Every byte of memory outside the n bytes from address a on reads as before. -/
def SameMemoryOutside (a n : Nat) (s t : State) : Prop :=
  ∀ b, b < a ∨ a + n ≤ b → t.mem.read b = s.mem.read b

/-- Every V register outside the list is unchanged. -/
def SameRegsBut (ds : List Reg) (s t : State) : Prop := ∀ k, k ∉ ds → t.getV k = s.getV k

/-- The call stack is unchanged, the entries that are not live too. -/
def SameStack (s t : State) : Prop := t.stack = s.stack ∧ t.sp = s.sp

/-- Both timers are unchanged. -/
def SameTimers (s t : State) : Prop := t.dt = s.dt ∧ t.st = s.st

/-- The framebuffer and the dirty flag are unchanged. -/
def SameDisplay (s t : State) : Prop := t.fb = s.fb ∧ t.dirty = s.dirty

/-- The model's own fields are unchanged: the inputs of the step, the host's turns to come, the load and VF_WRITE_ORDER. -/
def SameModelFields (s t : State) : Prop :=
  t.keys = s.keys ∧ t.rand = s.rand ∧ t.schedule = s.schedule ∧ t.turn = s.turn ∧
    t.loaded = s.loaded ∧ t.vfOrder = s.vfOrder

/-- Only V registers of the list, and `pc`, may have changed. -/
def OnlyRegs (ds : List Reg) (s t : State) : Prop :=
  SameRegsBut ds s t ∧ t.i = s.i ∧ SameStack s t ∧ SameTimers s t ∧ SameDisplay s t ∧
    SameMemory s t ∧ SameModelFields s t

/-- Only `I`, and `pc`, may have changed. -/
def OnlyIndex (s t : State) : Prop :=
  SameRegsBut [] s t ∧ SameStack s t ∧ SameTimers s t ∧ SameDisplay s t ∧ SameMemory s t ∧
    SameModelFields s t

/-- Only the n bytes of memory from address a on, and `pc`, may have changed. -/
def OnlyBytes (a n : Nat) (s t : State) : Prop :=
  SameRegsBut [] s t ∧ t.i = s.i ∧ SameStack s t ∧ SameTimers s t ∧ SameDisplay s t ∧
    SameMemoryOutside a n s t ∧ SameModelFields s t

/-- Only the framebuffer, the dirty flag, VF where it is listed, and `pc` may have changed. -/
def OnlyDisplay (ds : List Reg) (s t : State) : Prop :=
  SameRegsBut ds s t ∧ t.i = s.i ∧ SameStack s t ∧ SameTimers s t ∧ SameMemory s t ∧
    SameModelFields s t

/-- Only the call stack, and `pc`, may have changed. -/
def OnlyStack (s t : State) : Prop :=
  SameRegsBut [] s t ∧ t.i = s.i ∧ SameTimers s t ∧ SameDisplay s t ∧ SameMemory s t ∧
    SameModelFields s t

/-! ### Results -/

/-- The instruction has a word that its row's mask and match select, and that decodes to it (R75). -/
def HasEncoding (i : Instr) (fixed mask : Word) : Prop :=
  encodeWord i &&& mask = fixed ∧ decodeWord (encodeWord i) = some i

/-- `V[x] <- val; pc <- pc + 2`, and nothing else. -/
def WritesReg (x : Reg) (val : Nat) (s t : State) : Prop :=
  (t.getV x).toNat = val ∧ t.pc = s.pc + 2 ∧ OnlyRegs [x] s t

/-- `WriteResultAndFlag(r, f)` for the destination x, then `pc <- pc + 2`, and nothing else (R142). -/
def WritesRegAndFlag (x : Reg) (r f : Nat) (s t : State) : Prop :=
  (x ≠ VF → (t.getV x).toNat = r ∧ (t.getV VF).toNat = f) ∧
  (x = VF → s.vfOrder = .flagLast → (t.getV VF).toNat = f) ∧
  (x = VF → s.vfOrder = .resultLast → (t.getV VF).toNat = r) ∧
  t.pc = s.pc + 2 ∧ OnlyRegs [x, VF] s t

/-- `pc <- pc + 4` if the condition holds, else `pc <- pc + 2`, and nothing else (R128). -/
def SkipsIf (c : Prop) (s t : State) : Prop :=
  (c → t.pc = s.pc + 4) ∧ (¬ c → t.pc = s.pc + 2) ∧ OnlyRegs [] s t

/-- The instruction is a skip and its condition holds (R25, R123 to R126, R190, R191). -/
def SkipTaken (i : Instr) (s : State) : Prop :=
  (∃ x nn, (i = .seImm x nn ∧ s.getV x = nn) ∨ (i = .sneImm x nn ∧ s.getV x ≠ nn)) ∨
  (∃ x y, (i = .seReg x y ∧ s.getV x = s.getV y) ∨ (i = .sneReg x y ∧ s.getV x ≠ s.getV y)) ∨
  (∃ x, (i = .skp x ∧ s.keys.getLsbD (s.getV x).toNat = true) ∨
    (i = .sknp x ∧ s.keys.getLsbD (s.getV x).toNat = false))

/-- A set bit of the n-row sprite at I, drawn at (V[x], V[y]), falls on the cell (r, c) (R101). -/
def SpriteCovers (s : State) (x y : Reg) (n : Nat) (r : Fin 32) (c : Fin 64) : Prop :=
  ∃ row < n, ∃ col < 8, (s.mem.read (s.i.toNat + row)).getLsbD (7 - col) = true ∧
    ((s.getV y).toNat + row) % 32 = r.val ∧ ((s.getV x).toNat + col) % 64 = c.val

/-- A set bit of the sprite falls on a cell that is set before the step (R103). -/
def SpriteCollides (s : State) (x y : Reg) (n : Nat) : Prop :=
  ∃ r c, SpriteCovers s x y n r c ∧ s.fb.cell r c = true

/-! ### Runs -/

/-- What every run keeps: memory in canonical form, `pc` at most 0x10FE (R25) and every live stack entry
at most 0xFFE, the last address an instruction can be fetched from (R120). -/
def Inv (s : State) : Prop :=
  s.mem.wf ∧ s.pc.toNat ≤ 0x10FE ∧ ∀ k : Fin 16, k.val < s.sp.val → s.stack[k.val].toNat ≤ 0xFFE

/-- The instruction at `pc` is `JP pc`, a self-jump (R244): `pc <= 0xFFE` and the word there is 0x1000 + pc. -/
def AtSelfJump (s : State) : Prop :=
  s.pc.toNat ≤ 0xFFE ∧
    bytePair (s.mem.read s.pc.toNat) (s.mem.read (s.pc.toNat + 1)) = 0x1000 + s.pc

/-- halted(S) of a run (R244): no error has been returned, and the run stands at a self-jump. -/
def Halted (r : Run) : Prop := (∀ op f, (op, HostReply.err f) ∉ r.log) ∧ AtSelfJump r.state

/-- faulted(S) of a run (R244): some `step()` has returned an error. -/
def Faulted (r : Run) : Prop := ∃ keys rand f, (HostOp.step keys rand, HostReply.err f) ∈ r.log

/-- A step at this state, should the host call it, returns the error, under some inputs (R219). No run needs
to have called it: that is `Faulted`. -/
def FaultsWith (s : State) (f : Fault) : Prop := ∃ keys rand, stepCall keys rand s = .fault f

end Sys2Proof.Machine
end

