-- ==== Sys2Proof/Certificates/Slice0/Obligations.lean ====
section
/-! DEFINITION. The statements for the provers, by the section of the spec they formalise. Quantified over every
state, a statement holds for every keypad snapshot, every random byte, every schedule of the host, every free turn
and both values of VF_WRITE_ORDER. -/

open Sys2Proof Sys2Proof.Machine

/-! ### Encoding (30_encoding.md) -/

/-- Decoding the encoding of an instruction, whatever bytes follow, gives the instruction with every
operand at every value its field admits (R70 to R73). -/
def Obligations.DecodeInvertsEncode : Prop :=
  ∀ (i : Instr) (rest : List Byte), decode (encode i ++ rest) = .ok (i, rest)

/-- A word has one meaning: encoding the instruction that a word decodes to gives the word back. -/
def Obligations.EncodeInvertsDecode : Prop :=
  ∀ (w : Word) (i : Instr), decodeWord w = some i → encodeWord i = w

/-- The dispatch of R74 selects, on every word, the row whose mask and match select it, and none where
no row does (R75). -/
def Obligations.DecoderSelectsTheTableRow : Prop :=
  ∀ w : Word, (decodeWord w).map Instr.mnemonic = rowOf w

/-- No word selects two rows of the opcode table (R76). -/
def Obligations.OpcodeRowsAreDisjoint : Prop :=
  ∀ (w : Word) (r₁ r₂ : OpcodeRow), r₁ ∈ opcodeRows → r₂ ∈ opcodeRows →
    r₁.selects w = true → r₂.selects w = true → r₁ = r₂

/-- The words that are no instruction are exactly the six classes of R76. -/
def Obligations.UnsupportedWordClasses : Prop :=
  ∀ w : Word, decodeWord w = none ↔
    (opField w = 0x0 ∧ w ≠ 0x00E0 ∧ w ≠ 0x00EE) ∨
    (opField w = 0x5 ∧ nField w ≠ 0) ∨
    (opField w = 0x8 ∧ nField w ∈ ([0x8, 0x9, 0xA, 0xB, 0xC, 0xD, 0xF] : List (Fin 16))) ∨
    (opField w = 0x9 ∧ nField w ≠ 0) ∨
    (opField w = 0xE ∧ nnField w ∉ ([0x9E, 0xA1] : List Byte)) ∨
    (opField w = 0xF ∧
      nnField w ∉ ([0x07, 0x0A, 0x15, 0x18, 0x1E, 0x29, 0x33, 0x55, 0x65] : List Byte))

/-- Words written out from the rows of R75 decode to what those rows name. -/
def Obligations.WrittenOutWordsDecode : Prop :=
  decodeWord 0b0000000011100000 = some .cls ∧
  decodeWord 0b0001001000001000 = some (.jp 0x208) ∧
  decodeWord 0b1000000101010110 = some (.shr 1 5) ∧
  decodeWord 0b1010001100000000 = some (.ldI 0x300) ∧
  decodeWord 0b1101000100100011 = some (.drw 1 2 3) ∧
  decodeWord 0b1111000000001010 = some (.ldVxK 0)

/-! ### The step (00_scope.md, 20_memory.md, 60_exceptions.md) -/

/-- When the two bytes at `pc` decode to an instruction, a step is `exec` of it at the same state, then
the host's turn, and the host's `step(key, rand)` (R225) is `exec` of it with these inputs, the next state kept; an
error of it is the step's. -/
def Obligations.StepRunsTheDecodedInstruction : Prop :=
  ∀ (s : State) (i : Instr), s.loaded = true → s.pc.toNat + 1 < 4096 →
    decode [s.mem.read s.pc.toNat, s.mem.read (s.pc.toNat + 1)] = .ok (i, []) →
    coreStep s = exec i s ∧
    (∀ t, exec i s = .next t → step s = .next (hostTurn t)) ∧
    (∀ f, exec i s = .fault f → step s = .fault f) ∧
    (∀ keys rand t, exec i { s with keys := keys, rand := rand } = .next t →
      perform (.step keys rand) s = (t, .ok)) ∧
    (∀ keys rand f, exec i { s with keys := keys, rand := rand } = .fault f →
      perform (.step keys rand) s = (s, .err f))

/-- R55: the fetch is big-endian, needs no alignment, and raises AddressOutOfRange on the first of the
two addresses that is 4096 or more; a ROM byte at offset k is loaded at 0x200 + k. -/
def Obligations.FetchReadsABigEndianWord : Prop :=
  (∀ s : State, s.pc.toNat + 1 < 4096 → ∃ w : Word, fetch s = .ok w ∧
    w.toNat = (s.mem.read s.pc.toNat).toNat * 256 + (s.mem.read (s.pc.toNat + 1)).toNat) ∧
  (∀ s : State, s.loaded = true → s.pc.toNat ≥ 4096 →
    step s = .fault (.addressOutOfRange s.pc.toNat s.pc)) ∧
  (∀ s : State, s.loaded = true → s.pc.toNat = 4095 →
    step s = .fault (.addressOutOfRange 4096 s.pc)) ∧
  (∀ (s t : State) (rom : List Byte) (k : Nat) (b : Byte), loadProgram rom s = .next t →
    rom[k]? = some b → t.mem.read (0x200 + k) = b)

/-- A fetched word that selects no row of R75 is an error with the word and the `pc` it was fetched from,
and no state changes (R77, R211). -/
def Obligations.UnsupportedWordIsAnError : Prop :=
  ∀ (s : State) (w : Word), s.loaded = true → fetch s = .ok w → rowOf w = none →
    step s = .fault (.unsupportedOpcode w s.pc) ∧
    perform (.step s.keys s.rand) s = (s, .err (.unsupportedOpcode w s.pc))

/-- A step before a load and a second load are refused (R242). -/
def Obligations.HostMovesOutsideTheInterfaceAreRefused : Prop :=
  (∀ s : State, s.loaded = false → step s = .refused .stepBeforeLoad) ∧
  (∀ (s : State) (rom : List Byte), s.loaded = true → loadProgram rom s = .refused .secondLoad)

/-- What each instruction can raise: `exec` never refuses, and an error is of the one kind its rule
names (R210, R218). -/
def Obligations.EachInstructionRaisesOneKindOfError : Prop :=
  ∀ (i : Instr) (s : State),
    (∀ r, exec i s ≠ .refused r) ∧
    (∀ f, exec i s = .fault f →
      (i = .ret ∧ f = .stackUnderflow s.pc) ∨
      ((∃ nnn, i = .call nnn) ∧ f = .stackOverflow s.pc) ∨
      ((∃ x, i = .skp x ∨ i = .sknp x) ∧ ∃ v, f = .keyIndexOutOfRange v s.pc) ∨
      ((∃ x y n, i = .drw x y n ∨ i = .ldB x ∨ i = .dump x ∨ i = .load x) ∧
        ∃ a, 4096 ≤ a ∧ f = .addressOutOfRange a s.pc))

/-! ### Reset and load (70_reset_and_hazards.md) -/

/-- R240: every element of the state after construction. The glyph table of R60 stands row by row, a
glyph's five bytes as one number, the first byte highest; glyph k starts at 0x050 + 5k (R61). -/
def Obligations.ConstructionResetsEveryElement : Prop :=
  (∀ x, State.reset.getV x = 0) ∧ State.reset.i = 0 ∧ State.reset.pc = 0x200 ∧
  State.reset.sp = 0 ∧ (∀ k : Fin 16, State.reset.stack[k.val] = 0) ∧
  State.reset.dt = 0 ∧ State.reset.st = 0 ∧
  (∀ r c, State.reset.fb.cell r c = false) ∧ State.reset.dirty = false ∧
  (∀ a, a < 0x050 ∨ 0x0A0 ≤ a → State.reset.mem.read a = 0) ∧
  (∀ k j g, j < 5 →
    ([0xF0909090F0, 0x2060202070, 0xF010F080F0, 0xF010F010F0, 0x9090F01010, 0xF080F010F0,
      0xF080F090F0, 0xF010204040, 0xF090F090F0, 0xF090F010F0, 0xF090F09090, 0xE090E090E0,
      0xF0808080F0, 0xE0909090E0, 0xF080F080F0, 0xF080F08080] : List Nat)[k]? = some g →
    (State.reset.mem.read (0x050 + 5 * k + j)).toNat = g / 256 ^ (4 - j) % 256)

/-- The model's own fields after construction: no program is loaded, so a step is refused (R242, log 3),
VF_WRITE_ORDER has the spec's value (R142, log 4), and no host turn is fixed or has been taken (log 1). -/
def Obligations.ConstructionOfTheModelFields : Prop :=
  State.reset.loaded = false ∧ step State.reset = .refused .stepBeforeLoad ∧
  (∀ keys rand, perform (.step keys rand) State.reset =
    (State.reset, .refused .stepBeforeLoad)) ∧
  State.reset.vfOrder = .flagLast ∧ State.reset.schedule = [] ∧ State.reset.turn = 0

/-- R241: the ROM lands at 0x200, or RomTooLarge and nothing is written; nothing else changes. -/
def Obligations.LoadWritesTheRomAndNothingElse : Prop :=
  ∀ (s : State) (rom : List Byte), s.loaded = false →
    (rom.length ≤ 3584 → ∃ t, loadProgram rom s = .next t ∧
      perform (.loadProgram rom) s = (t, .ok) ∧ t.loaded = true ∧
      (∀ k b, rom[k]? = some b → t.mem.read (0x200 + k) = b) ∧
      SameMemoryOutside 0x200 rom.length s t ∧ SameRegsBut [] s t ∧ t.i = s.i ∧ t.pc = s.pc ∧
      SameStack s t ∧ SameTimers s t ∧ SameDisplay s t ∧ t.keys = s.keys ∧ t.rand = s.rand ∧
      t.schedule = s.schedule ∧ t.turn = s.turn ∧ t.vfOrder = s.vfOrder) ∧
    (3584 < rom.length → loadProgram rom s = .fault (.romTooLarge rom.length) ∧
      perform (.loadProgram rom) s = (s, .err (.romTooLarge rom.length)))

/-! ### Display (40_display.md) -/

/-- CLS (R100). -/
def Obligations.ClearScreen : Prop :=
  HasEncoding .cls 0x00E0 0xFFFF ∧
  ∀ s : State, ∃ t, exec .cls s = .next t ∧ (∀ r c, t.fb.cell r c = false) ∧ t.dirty = true ∧
    t.pc = s.pc + 2 ∧ OnlyDisplay [] s t

/-- DRW (R101, R103): each cell is inverted exactly where a set sprite bit covers it, VF is the collision
bit over the cells before the step, and nothing else changes. With n = 0 no byte is read. -/
def Obligations.DrawSpriteXorsAndDetectsCollision : Prop :=
  ∀ (s : State) (x y : Reg) (n : Fin 16), HasEncoding (.drw x y n) 0xD000 0xF000 ∧
    (n.val = 0 ∨ s.i.toNat + n.val ≤ 4096 → ∃ t, exec (.drw x y n) s = .next t ∧
      (∀ r c, SpriteCovers s x y n.val r c → t.fb.cell r c = !s.fb.cell r c) ∧
      (∀ r c, ¬ SpriteCovers s x y n.val r c → t.fb.cell r c = s.fb.cell r c) ∧
      (SpriteCollides s x y n.val → t.getV VF = 1) ∧
      (¬ SpriteCollides s x y n.val → t.getV VF = 0) ∧
      t.dirty = true ∧ t.pc = s.pc + 2 ∧ OnlyDisplay [VF] s t) ∧
    (n.val ≠ 0 → 4096 < s.i.toNat + n.val →
      exec (.drw x y n) s = .fault (.addressOutOfRange (max s.i.toNat 4096) s.pc))

/-- The host reads the framebuffer row-major: cell (r, c) is element r * 64 + c of 2048 (R31). -/
def Obligations.FramebufferReadIsRowMajor : Prop :=
  ∀ s : State, (readFramebuffer s).length = 2048 ∧
    ∀ (r : Fin 32) (c : Fin 64), (readFramebuffer s)[r.val * 64 + c.val]? = some (s.fb.cell r c)

/-! ### Control transfer (41_control.md) -/

/-- RET (R120): the popped entry plus 2, or StackUnderflow. In a run's states the popped entry is at most
0xFFE and the sum does not wrap. That the entry is the address of a CALL is what CallPushesItsOwnAddress and
ReturnUndoesCall say. -/
def Obligations.ReturnPopsAndAddsTwo : Prop :=
  HasEncoding .ret 0x00EE 0xFFFF ∧
  ∀ s : State,
    (s.sp.val = 0 → exec .ret s = .fault (.stackUnderflow s.pc)) ∧
    (s.sp.val ≠ 0 → ∃ t w, exec .ret s = .next t ∧ s.stack[s.sp.val - 1]? = some w ∧
      t.pc = w + 2 ∧ t.sp.val = s.sp.val - 1 ∧ t.stack = s.stack ∧ OnlyStack s t ∧
      (Inv s → w.toNat ≤ 0xFFE ∧ t.pc.toNat = w.toNat + 2))

/-- JP (R121) and JP V0 (R127): the target as given, not reduced; a target that cannot be fetched from is
no error of the jump but of the next fetch. -/
def Obligations.JumpsSetPc : Prop :=
  ∀ (s : State) (nnn : Addr),
    HasEncoding (.jp nnn) 0x1000 0xF000 ∧ HasEncoding (.jpV0 nnn) 0xB000 0xF000 ∧
    (∃ t, exec (.jp nnn) s = .next t ∧ t.pc.toNat = nnn.toNat ∧ OnlyRegs [] s t ∧
      (nnn.toNat ≠ 0xFFF → ∃ w, fetch t = .ok w) ∧
      (nnn.toNat = 0xFFF → fetch t = .error (.addressOutOfRange 0x1000 t.pc))) ∧
    (∃ t, exec (.jpV0 nnn) s = .next t ∧ t.pc.toNat = nnn.toNat + (s.getV 0).toNat ∧
      OnlyRegs [] s t ∧
      (nnn.toNat + (s.getV 0).toNat < 0xFFF → ∃ w, fetch t = .ok w) ∧
      (0xFFF ≤ nnn.toNat + (s.getV 0).toNat →
        fetch t = .error (.addressOutOfRange (max t.pc.toNat 0x1000) t.pc)))

/-- CALL (R122): its own address is pushed, or StackOverflow at 16 entries. -/
def Obligations.CallPushesItsOwnAddress : Prop :=
  ∀ (s : State) (nnn : Addr), HasEncoding (.call nnn) 0x2000 0xF000 ∧
    (s.sp.val = 16 → exec (.call nnn) s = .fault (.stackOverflow s.pc)) ∧
    (s.sp.val ≠ 16 → ∃ t, exec (.call nnn) s = .next t ∧ t.stack[s.sp.val]? = some s.pc ∧
      (∀ k, k ≠ s.sp.val → t.stack[k]? = s.stack[k]?) ∧ t.sp.val = s.sp.val + 1 ∧
      t.pc.toNat = nnn.toNat ∧ OnlyStack s t)

/-- SE and SNE with a byte (R123, R124). -/
def Obligations.ImmediateSkips : Prop :=
  ∀ (s : State) (x : Reg) (nn : Byte),
    HasEncoding (.seImm x nn) 0x3000 0xF000 ∧ HasEncoding (.sneImm x nn) 0x4000 0xF000 ∧
    (∃ t, exec (.seImm x nn) s = .next t ∧ SkipsIf (s.getV x = nn) s t) ∧
    (∃ t, exec (.sneImm x nn) s = .next t ∧ SkipsIf (s.getV x ≠ nn) s t)

/-- SE and SNE with two registers (R125, R126). -/
def Obligations.RegisterSkips : Prop :=
  ∀ (s : State) (x y : Reg),
    HasEncoding (.seReg x y) 0x5000 0xF00F ∧ HasEncoding (.sneReg x y) 0x9000 0xF00F ∧
    (∃ t, exec (.seReg x y) s = .next t ∧ SkipsIf (s.getV x = s.getV y) s t) ∧
    (∃ t, exec (.sneReg x y) s = .next t ∧ SkipsIf (s.getV x ≠ s.getV y) s t)

/-- A RET after a CALL goes on after the CALL with the stack pointer and the live entries as they were. -/
def Obligations.ReturnUndoesCall : Prop :=
  ∀ (s t : State) (nnn : Addr) (w : Word), exec (.call nnn) s = .next t →
    ∃ u, exec .ret (t.setPc w) = .next u ∧ u.pc = s.pc + 2 ∧ u.sp = s.sp ∧
      (∀ k, k < s.sp.val → u.stack[k]? = s.stack[k]?) ∧ OnlyStack s u

/-- R25: each instruction that completes sets `pc` in exactly one way: by 4 for a skip whose condition holds,
not at all for LD Vx, K with no key pressed, to the target of JP, CALL, JP V0 and RET, and by 2 otherwise. -/
def Obligations.PcUpdatesOfEveryInstruction : Prop :=
  ∀ (i : Instr) (s t : State), exec i s = .next t →
    (SkipTaken i s → t.pc = s.pc + 4) ∧
    (∀ x, i = .ldVxK x → s.keys = 0 → t = s) ∧
    (∀ nnn, i = .jp nnn ∨ i = .call nnn → t.pc.toNat = nnn.toNat) ∧
    (∀ nnn, i = .jpV0 nnn → t.pc.toNat = nnn.toNat + (s.getV 0).toNat) ∧
    (i = .ret → ∃ w, s.stack[s.sp.val - 1]? = some w ∧ t.pc = w + 2) ∧
    (¬ SkipTaken i s → (∀ x, i = .ldVxK x → s.keys ≠ 0) →
      (∀ nnn, i ≠ .jp nnn ∧ i ≠ .call nnn ∧ i ≠ .jpV0 nnn) → i ≠ .ret → t.pc = s.pc + 2)

/-- A self-jump does not stop the core: a step runs it again and changes nothing. So a halted run of a
loaded core stays halted under every further operation of the host, which can only move the timers, clear the
dirty flag and give inputs (R244). -/
def Obligations.SelfJumpIsStable : Prop :=
  (∀ s : State, s.loaded = true → AtSelfJump s → coreStep s = .next s) ∧
  (∀ (r : Run) (ops : List HostOp), r.state.loaded = true → Halted r →
    Halted (r.nextAll ops) ∧ SameMemory r.state (r.nextAll ops).state ∧
    SameRegsBut [] r.state (r.nextAll ops).state ∧ (r.nextAll ops).state.i = r.state.i ∧
    (r.nextAll ops).state.pc = r.state.pc ∧ SameStack r.state (r.nextAll ops).state ∧
    (r.nextAll ops).state.fb = r.state.fb)

/-! ### Register loads and ALU (42_alu.md) -/

/-- LD Vx, nn (R140) and ADD Vx, nn (R141). -/
def Obligations.ImmediateLoadAndAdd : Prop :=
  ∀ (s : State) (x : Reg) (nn : Byte),
    HasEncoding (.ldImm x nn) 0x6000 0xF000 ∧ HasEncoding (.addImm x nn) 0x7000 0xF000 ∧
    (∃ t, exec (.ldImm x nn) s = .next t ∧ WritesReg x nn.toNat s t) ∧
    (∃ t, exec (.addImm x nn) s = .next t ∧
      WritesReg x (((s.getV x).toNat + nn.toNat) % 256) s t)

/-- LD, OR, AND and XOR of two registers: no flag (R143 to R146). -/
def Obligations.RegisterAssignAndLogic : Prop :=
  ∀ (s : State) (x y : Reg),
    HasEncoding (.ldReg x y) 0x8000 0xF00F ∧ HasEncoding (.orReg x y) 0x8001 0xF00F ∧
    HasEncoding (.andReg x y) 0x8002 0xF00F ∧ HasEncoding (.xorReg x y) 0x8003 0xF00F ∧
    (∃ t, exec (.ldReg x y) s = .next t ∧ WritesReg x (s.getV y).toNat s t) ∧
    (∃ t, exec (.orReg x y) s = .next t ∧
      WritesReg x ((s.getV x).toNat ||| (s.getV y).toNat) s t) ∧
    (∃ t, exec (.andReg x y) s = .next t ∧
      WritesReg x ((s.getV x).toNat &&& (s.getV y).toNat) s t) ∧
    (∃ t, exec (.xorReg x y) s = .next t ∧
      WritesReg x ((s.getV x).toNat ^^^ (s.getV y).toNat) s t)

/-- ADD Vx, Vy (R147): the sum mod 256, and the carry in VF in the order of R142. -/
def Obligations.AddRegistersWithCarry : Prop :=
  ∀ (s : State) (x y : Reg), HasEncoding (.addReg x y) 0x8004 0xF00F ∧
    ∃ t, exec (.addReg x y) s = .next t ∧
      WritesRegAndFlag x (((s.getV x).toNat + (s.getV y).toNat) % 256)
        (if (s.getV x).toNat + (s.getV y).toNat > 255 then 1 else 0) s t

/-- SUB (R148) and SUBN (R150): the differences mod 256, with the strict and the non-strict flag. -/
def Obligations.Subtractions : Prop :=
  ∀ (s : State) (x y : Reg),
    HasEncoding (.subReg x y) 0x8005 0xF00F ∧ HasEncoding (.subnReg x y) 0x8007 0xF00F ∧
    (∃ t, exec (.subReg x y) s = .next t ∧
      WritesRegAndFlag x ((((s.getV x).toNat : Int) - (s.getV y).toNat) % 256).toNat
        (if (s.getV x).toNat > (s.getV y).toNat then 1 else 0) s t) ∧
    (∃ t, exec (.subnReg x y) s = .next t ∧
      WritesRegAndFlag x ((((s.getV y).toNat : Int) - (s.getV x).toNat) % 256).toNat
        (if (s.getV y).toNat ≥ (s.getV x).toNat then 1 else 0) s t)

/-- SHR (R149) and SHL (R151): V[x] shifted by one, whatever y is, with the bit shifted out in VF. -/
def Obligations.Shifts : Prop :=
  ∀ (s : State) (x y : Reg),
    HasEncoding (.shr x y) 0x8006 0xF00F ∧ HasEncoding (.shl x y) 0x800E 0xF00F ∧
    (∃ t, exec (.shr x y) s = .next t ∧
      WritesRegAndFlag x ((s.getV x).toNat / 2) ((s.getV x).toNat % 2) s t) ∧
    (∃ t, exec (.shl x y) s = .next t ∧
      WritesRegAndFlag x ((s.getV x).toNat * 2 % 256) ((s.getV x).toNat / 128) s t)

/-- RND (R152): this step's random byte, any byte, masked. -/
def Obligations.RandomMasked : Prop :=
  ∀ (s : State) (x : Reg) (nn : Byte), HasEncoding (.rnd x nn) 0xC000 0xF000 ∧
    ∃ t, exec (.rnd x nn) s = .next t ∧ WritesReg x (s.rand.toNat &&& nn.toNat) s t

/-- R22: the instructions that write VF as a flag, and the others only as a plain destination. -/
def Obligations.OnlyFlagWritersChangeVf : Prop :=
  ∀ (i : Instr) (s t : State), exec i s = .next t → t.getV VF = s.getV VF ∨
    (∃ x y, i = .addReg x y ∨ i = .subReg x y ∨ i = .subnReg x y ∨ i = .shr x y ∨
      i = .shl x y) ∨
    (∃ x y n, i = .drw x y n) ∨
    (∃ y nn, i = .ldImm VF nn ∨ i = .addImm VF nn ∨ i = .ldReg VF y ∨ i = .orReg VF y ∨
      i = .andReg VF y ∨ i = .xorReg VF y ∨ i = .rnd VF nn ∨ i = .ldVxDt VF ∨ i = .ldVxK VF ∨
      i = .load VF)

/-! ### Index register and memory transfer (43_index_memory.md) -/

/-- LD I (R170), ADD I (R171) and LD F (R172). -/
def Obligations.IndexLoadsAndAdd : Prop :=
  ∀ (s : State) (x : Reg) (nnn : Addr),
    HasEncoding (.ldI nnn) 0xA000 0xF000 ∧ HasEncoding (.addI x) 0xF01E 0xF0FF ∧
    HasEncoding (.ldF x) 0xF029 0xF0FF ∧
    (∃ t, exec (.ldI nnn) s = .next t ∧ t.i.toNat = nnn.toNat ∧ t.pc = s.pc + 2 ∧
      OnlyIndex s t) ∧
    (∃ t, exec (.addI x) s = .next t ∧ t.i.toNat = (s.i.toNat + (s.getV x).toNat) % 65536 ∧
      t.pc = s.pc + 2 ∧ OnlyIndex s t) ∧
    (∃ t, exec (.ldF x) s = .next t ∧ t.i.toNat = 0x050 + (s.getV x).toNat * 5 ∧
      t.pc = s.pc + 2 ∧ OnlyIndex s t)

/-- LD B (R173): the three decimal digits stored from I on, or no byte and the first failing address. -/
def Obligations.StoreBcd : Prop :=
  ∀ (s : State) (x : Reg), HasEncoding (.ldB x) 0xF033 0xF0FF ∧
    (dataAddr s + 3 ≤ 4096 → ∃ t, exec (.ldB x) s = .next t ∧
      (t.mem.read (dataAddr s)).toNat = (s.getV x).toNat / 100 ∧
      (t.mem.read (dataAddr s + 1)).toNat = (s.getV x).toNat / 10 % 10 ∧
      (t.mem.read (dataAddr s + 2)).toNat = (s.getV x).toNat % 10 ∧
      t.pc = s.pc + 2 ∧ OnlyBytes (dataAddr s) 3 s t) ∧
    (4096 < dataAddr s + 3 →
      exec (.ldB x) s = .fault (.addressOutOfRange (max s.i.toNat 4096) s.pc))

/-- LD [I], Vx (R174): V0 to Vx stored from I on and I unchanged, or no byte and the first failing address. -/
def Obligations.RegisterDump : Prop :=
  ∀ (s : State) (x : Reg), HasEncoding (.dump x) 0xF055 0xF0FF ∧
    (dataAddr s + x.val < 4096 → ∃ t, exec (.dump x) s = .next t ∧
      (∀ k, k ≤ x → t.mem.read (dataAddr s + k.val) = s.getV k) ∧
      t.pc = s.pc + 2 ∧ OnlyBytes (dataAddr s) (x.val + 1) s t) ∧
    (4096 ≤ dataAddr s + x.val →
      exec (.dump x) s = .fault (.addressOutOfRange (max s.i.toNat 4096) s.pc))

/-- LD Vx, [I] (R175): V0 to Vx loaded from I on and I advanced past them, or no register written and
the first failing address. -/
def Obligations.RegisterLoad : Prop :=
  ∀ (s : State) (x : Reg), HasEncoding (.load x) 0xF065 0xF0FF ∧
    (dataAddr s + x.val < 4096 → ∃ t, exec (.load x) s = .next t ∧
      (∀ k, k ≤ x → t.getV k = s.mem.read (dataAddr s + k.val)) ∧
      (∀ k, x < k → t.getV k = s.getV k) ∧ t.i.toNat = (s.i.toNat + x.val + 1) % 65536 ∧
      t.i.toNat ≤ 0x1000 ∧ t.pc = s.pc + 2 ∧ SameStack s t ∧ SameTimers s t ∧ SameDisplay s t ∧
      SameMemory s t ∧ SameModelFields s t) ∧
    (4096 ≤ dataAddr s + x.val →
      exec (.load x) s = .fault (.addressOutOfRange (max s.i.toNat 4096) s.pc))

/-- A dump of V0 to Vx and a load from the same address give the registers back and advance I by x + 1,
whatever happened to the other registers and to I in between (95_test_vectors.md S6). -/
def Obligations.DumpThenLoadRestores : Prop :=
  ∀ (s t u : State) (x : Reg), exec (.dump x) s = .next t → u.mem = t.mem → u.i = s.i →
    ∃ w, exec (.load x) u = .next w ∧ (∀ k, k ≤ x → w.getV k = s.getV k) ∧
      w.i.toNat = s.i.toNat + x.val + 1

/-- R68: an instruction stored by FX55 is what a later fetch at its address reads. -/
def Obligations.StoredInstructionIsFetched : Prop :=
  ∀ (s t : State) (x k : Reg) (hk : k.val + 1 < 16), k.val + 1 ≤ x.val →
    exec (.dump x) s = .next t →
    fetch (t.setPc (BitVec.ofNat 16 (s.i.toNat + k.val))) =
      .ok (bytePair (s.getV k) (s.getV ⟨k.val + 1, hk⟩))

/-- Only FX33 and FX55 write memory (R54, R62). -/
def Obligations.OnlyStoresChangeMemory : Prop :=
  ∀ (i : Instr) (s t : State), exec i s = .next t →
    SameMemory s t ∨ ∃ x, i = .ldB x ∨ i = .dump x

/-- The writers of I (R24). -/
def Obligations.OnlyIndexWritersChangeIndex : Prop :=
  ∀ (i : Instr) (s t : State), exec i s = .next t →
    t.i = s.i ∨ (∃ nnn, i = .ldI nnn) ∨ ∃ x, i = .addI x ∨ i = .ldF x ∨ i = .load x

/-! ### Keypad and timers (44_keypad_timer.md) -/

/-- SKP (R190) and SKNP (R191): the level of the key V[x], or KeyIndexOutOfRange from 16 on (R196). -/
def Obligations.KeySkips : Prop :=
  ∀ (s : State) (x : Reg),
    HasEncoding (.skp x) 0xE09E 0xF0FF ∧ HasEncoding (.sknp x) 0xE0A1 0xF0FF ∧
    ((s.getV x).toNat < 16 →
      (∃ t, exec (.skp x) s = .next t ∧
        SkipsIf (s.keys.getLsbD (s.getV x).toNat = true) s t) ∧
      (∃ t, exec (.sknp x) s = .next t ∧
        SkipsIf (s.keys.getLsbD (s.getV x).toNat = false) s t)) ∧
    (16 ≤ (s.getV x).toNat →
      exec (.skp x) s = .fault (.keyIndexOutOfRange (s.getV x) s.pc) ∧
      exec (.sknp x) s = .fault (.keyIndexOutOfRange (s.getV x) s.pc))

/-- LD Vx, K (R192): the lowest pressed key, or a completed step that leaves every element as it was. -/
def Obligations.WaitForKey : Prop :=
  ∀ (s : State) (x : Reg), HasEncoding (.ldVxK x) 0xF00A 0xF0FF ∧
    (∀ k : Fin 16, s.keys.getLsbD k.val = true →
      (∀ j : Fin 16, j < k → s.keys.getLsbD j.val = false) →
      ∃ t, exec (.ldVxK x) s = .next t ∧ WritesReg x k.val s t) ∧
    ((∀ k : Fin 16, s.keys.getLsbD k.val = false) → exec (.ldVxK x) s = .next s)

/-- LD Vx, DT (R193), LD DT, Vx (R194) and LD ST, Vx (R195). -/
def Obligations.TimerRegisterMoves : Prop :=
  ∀ (s : State) (x : Reg),
    HasEncoding (.ldVxDt x) 0xF007 0xF0FF ∧ HasEncoding (.ldDtVx x) 0xF015 0xF0FF ∧
    HasEncoding (.ldStVx x) 0xF018 0xF0FF ∧
    (∃ t, exec (.ldVxDt x) s = .next t ∧ WritesReg x s.dt.toNat s t) ∧
    (∃ t, exec (.ldDtVx x) s = .next t ∧ t.dt = s.getV x ∧ t.st = s.st ∧ t.pc = s.pc + 2 ∧
      SameRegsBut [] s t ∧ t.i = s.i ∧ SameStack s t ∧ SameDisplay s t ∧ SameMemory s t ∧
      SameModelFields s t) ∧
    (∃ t, exec (.ldStVx x) s = .next t ∧ t.st = s.getV x ∧ t.dt = s.dt ∧ t.pc = s.pc + 2 ∧
      SameRegsBut [] s t ∧ t.i = s.i ∧ SameStack s t ∧ SameDisplay s t ∧ SameMemory s t ∧
      SameModelFields s t ∧ (toneActive t = true ↔ s.getV x ≠ 0))

/-! ### The host interface (60_exceptions.md) -/

/-- `tick_timers()` (R223): both timers down by 1, floored at 0, and nothing else changes. -/
def Obligations.TickCountsBothTimersDown : Prop :=
  ∀ s : State, (tickTimers s).dt.toNat = s.dt.toNat - 1 ∧ (tickTimers s).st.toNat = s.st.toNat - 1 ∧
    { tickTimers s with dt := s.dt, st := s.st } = s

/-- `clear_dirty()` (R226), `is_dirty()` (R32) and the tone (R224). -/
def Obligations.HostReadsAndClears : Prop :=
  ∀ s : State, clearDirty s = { s with dirty := false } ∧
    perform .isDirty s = (s, .flag s.dirty) ∧
    perform .readTone s = (s, .flag (decide (s.st ≠ 0)))

/-- A turn of the host between two steps is that number of `tick_timers()`, then `clear_dirty()` or not,
and the next step's inputs (R223, R226, R229). After a step the host takes the turn at the head of the schedule, or some
turn where the schedule has ended, and that turn is used up; nothing but the timers, the dirty flag, the inputs and
the turns to come can change (log 1). -/
def Obligations.HostTurnIsTicksAndClear : Prop :=
  (∀ (s : State) (t : Config.HostTurn),
    applyTurn t s =
      { (if t.clears then clearDirty (performAll (List.replicate t.ticks .tickTimers) s)
         else performAll (List.replicate t.ticks .tickTimers) s) with
        keys := t.keys, rand := t.rand }) ∧
  (∀ (s : State) (t : Config.HostTurn) (ts : List Config.HostTurn), s.schedule = t :: ts →
    hostTurn s = { applyTurn t s with schedule := ts, turn := s.turn + 1 }) ∧
  (∀ s : State, s.schedule = [] →
    ∃ t, hostTurn s = { applyTurn t s with schedule := [], turn := s.turn + 1 }) ∧
  (∀ s : State, SameMemory s (hostTurn s) ∧ SameRegsBut [] s (hostTurn s) ∧ (hostTurn s).i = s.i ∧
    (hostTurn s).pc = s.pc ∧ SameStack s (hostTurn s) ∧ (hostTurn s).fb = s.fb ∧
    (hostTurn s).loaded = s.loaded ∧ (hostTurn s).vfOrder = s.vfOrder)

/-- Ticks and clears of the dirty flag in any interleaving have the effect of one turn of the host:
the turns of the model leave out no interleaving (R229). -/
def Obligations.EveryInterleavingIsATurn : Prop :=
  ∀ (ops : List HostOp) (s : State),
    (∀ op ∈ ops, op = .tickTimers ∨ op = .clearDirty ∨ op = .isDirty ∨ op = .readTone ∨
      op = .readFramebuffer) →
    performAll ops s =
      applyTurn ⟨ops.count .tickTimers, decide (HostOp.clearDirty ∈ ops), s.keys, s.rand⟩ s

/-- Only FX15 and FX18 change a timer within a step: a step never ticks (R29, R30, C2). -/
def Obligations.StepsNeverTick : Prop :=
  ∀ (i : Instr) (s t : State), exec i s = .next t →
    (t.dt = s.dt ∨ ∃ x, i = .ldDtVx x) ∧ (t.st = s.st ∨ ∃ x, i = .ldStVx x)

/-- Only CLS and DXYN change the framebuffer, and they alone set the dirty flag, every time they complete (R31, R32). -/
def Obligations.OnlyClsAndDrawChangeTheDisplay : Prop :=
  ∀ (i : Instr) (s t : State), exec i s = .next t →
    ((i = .cls ∨ ∃ x y n, i = .drw x y n) → t.dirty = true) ∧
    (¬ (i = .cls ∨ ∃ x y n, i = .drw x y n) → SameDisplay s t)

/-- Only CALL pushes and only RET pops (R28). -/
def Obligations.OnlyCallAndReturnChangeTheStack : Prop :=
  ∀ (i : Instr) (s t : State), exec i s = .next t →
    SameStack s t ∨ ((∃ nnn, i = .call nnn) ∧ t.sp.val = s.sp.val + 1) ∨
      (i = .ret ∧ t.stack = s.stack ∧ t.sp.val + 1 = s.sp.val)

/-- No instruction changes its inputs, the host's turns, the load or VF_WRITE_ORDER (R34, R36). -/
def Obligations.InstructionsKeepTheModelFields : Prop :=
  ∀ (i : Instr) (s t : State), exec i s = .next t → SameModelFields s t

/-- An operation that returns an error or a refusal leaves the state exactly as it was (R9, R217). -/
def Obligations.ErrorsLeaveTheStateUnchanged : Prop :=
  ∀ (op : HostOp) (s t : State),
    (∀ f, perform op s = (t, .err f) → t = s) ∧ (∀ r, perform op s = (t, .refused r) → t = s)

/-- An error is permanent (R219): after it, whatever operations the host invokes and whatever inputs it
gives, a step returns the same error. -/
def Obligations.ErrorsArePermanent : Prop :=
  ∀ (s : State) (f : Fault), FaultsWith s f →
    ∀ (ops : List HostOp) (keys : BitVec 16) (rand : Byte),
      stepCall keys rand (performAll ops s) = .fault f

/-- In a run from any state, once a step has returned an error, every later step returns that same error, and
whatever the host does, the run is faulted and never halted (R219, R244). -/
def Obligations.FaultedRunsNeverRecover : Prop :=
  ∀ (s : State) (ops : List HostOp) (keys : BitVec 16) (rand : Byte) (f : Fault),
    (HostOp.step keys rand, HostReply.err f) ∈ ((Run.startAt s).nextAll ops).log →
    (∀ keys' rand', stepCall keys' rand' ((Run.startAt s).nextAll ops).state = .fault f) ∧
    ∀ more, Faulted ((Run.startAt s).nextAll (ops ++ more)) ∧
      ¬ Halted ((Run.startAt s).nextAll (ops ++ more))

/-! ### Invariants -/

/-- The invariant holds after construction. -/
def Obligations.InvariantHoldsAtReset : Prop := Inv State.reset

/-- Every step keeps the invariant: memory stays canonical, `pc` stays at most 0x10FE (R25), and every live
stack entry stays at most 0xFFE (R120), so that `pc` never wraps. -/
def Obligations.StepKeepsTheInvariant : Prop :=
  ∀ s t : State, Inv s → step s = .next t → Inv t

/-- Every operation of the host keeps the invariant, so every interleaving does (R229). -/
def Obligations.EveryInterleavingKeepsTheInvariant : Prop :=
  ∀ (ops : List HostOp) (s : State), Inv s → Inv (performAll ops s)

/-- Two memories in canonical form that read alike at every address are equal. -/
def Obligations.CanonicalMemoriesThatReadAlikeAreEqual : Prop :=
  ∀ m n : Memory, m.wf → n.wf → (∀ a, a < 4096 → m.read a = n.read a) → m = n
end

