-- ==== Sys2Proof/Laws/Decode.lean ====
section
/-! SUPPORT. The fields of the words that the encoder builds, what the masks of 30_encoding.md R75 keep of a word, and
the well-formedness of every instruction. -/

namespace Sys2Proof

/-- The operand types leave no ill-formed instruction. -/
theorem Instr.wellFormed_all (i : Instr) : i.wellFormed = true := by
  cases i <;> simp [Instr.wellFormed, regFits, byteFits, addrFits, heightFits] <;> omega

/-! ### Words of the three formats -/

theorem formNNN_toNat (op : Nat) (nnn : Addr) (h : op < 16) :
    (formNNN op nnn).toNat = op * 0x1000 + nnn.toNat := by
  simp only [formNNN, BitVec.toNat_ofNat]
  omega

theorem formXNN_toNat (op : Nat) (x : Reg) (nn : Byte) (h : op < 16) :
    (formXNN op x nn).toNat = op * 0x1000 + x * 0x100 + nn.toNat := by
  simp only [formXNN, BitVec.toNat_ofNat]
  omega

theorem formXYN_toNat (op : Nat) (x y : Reg) (n : Fin 16) (h : op < 16) :
    (formXYN op x y n).toNat = op * 0x1000 + x * 0x100 + y * 0x10 + n := by
  simp only [formXYN, BitVec.toNat_ofNat]
  omega

/-! ### Their fields -/

section
variable {op : Nat} (x y : Reg) (n : Fin 16) (nn : Byte) (nnn : Addr)

theorem opField_formNNN (h : op < 16) : opField (formNNN op nnn) = op := by
  simp only [opField, slice, formNNN_toNat op nnn h]
  omega

theorem nnnField_formNNN (h : op < 16) : nnnField (formNNN op nnn) = nnn := by
  apply BitVec.eq_of_toNat_eq
  simp only [nnnField, slice, formNNN_toNat op nnn h, BitVec.toNat_ofNat]
  omega

theorem opField_formXNN (h : op < 16) : opField (formXNN op x nn) = op := by
  simp only [opField, slice, formXNN_toNat op x nn h]
  omega

theorem xField_formXNN (h : op < 16) : xField (formXNN op x nn) = x := by
  apply Fin.ext
  simp only [xField, slice, formXNN_toNat op x nn h]
  omega

theorem nnField_formXNN (h : op < 16) : nnField (formXNN op x nn) = nn := by
  apply BitVec.eq_of_toNat_eq
  simp only [nnField, slice, formXNN_toNat op x nn h, BitVec.toNat_ofNat]
  omega

theorem opField_formXYN (h : op < 16) : opField (formXYN op x y n) = op := by
  simp only [opField, slice, formXYN_toNat op x y n h]
  omega

theorem xField_formXYN (h : op < 16) : xField (formXYN op x y n) = x := by
  apply Fin.ext
  simp only [xField, slice, formXYN_toNat op x y n h]
  omega

theorem yField_formXYN (h : op < 16) : yField (formXYN op x y n) = y := by
  apply Fin.ext
  simp only [yField, slice, formXYN_toNat op x y n h]
  omega

theorem nField_formXYN (h : op < 16) : nField (formXYN op x y n) = n := by
  apply Fin.ext
  simp only [nField, slice, formXYN_toNat op x y n h]
  omega

end

/-! ### Bytes of a word -/

/-- The two bytes of a word make the word (R55). -/
@[simp] theorem bytePair_highByte_lowByte (w : Word) : bytePair (highByte w) (lowByte w) = w := by
  apply BitVec.eq_of_toNat_eq
  simp only [bytePair, highByte, lowByte, slice, BitVec.toNat_ofNat]
  omega

/-- The decoder of bytes gives what the decoder of words gives on a word's bytes. -/
theorem decode_wordBytes (w : Word) (i : Instr) (rest : List Byte) (h : decodeWord w = some i) :
    decode (wordBytes w ++ rest) = .ok (i, rest) := by
  simp [wordBytes, decode, h]

/-! ### What a mask keeps -/

/-- The mask 0xF000 keeps the high nibble. -/
theorem and_mask_op (w : Word) : (w &&& 0xF000#16).toNat = w.toNat / 0x1000 * 0x1000 := by
  have h : 0x1000 = 2 ^ 12 := rfl
  rw [BitVec.toNat_and, h, ← Nat.shiftRight_eq_div_pow, ← Nat.shiftLeft_eq]
  apply Nat.eq_of_testBit_eq
  intro i
  rw [Nat.testBit_and, show (0xF000#16).toNat = (2 ^ 4 - 1) <<< 12 from rfl,
    Nat.testBit_shiftLeft, Nat.testBit_shiftLeft, Nat.testBit_shiftRight,
    Nat.testBit_two_pow_sub_one]
  by_cases h12 : 12 ≤ i
  · rw [show 12 + (i - 12) = i by omega]
    by_cases h16 : i < 16
    · simp [h12, show i - 12 < 4 by omega]
    · have : w.toNat.testBit i = false :=
        Nat.testBit_lt_two_pow (w.isLt.trans_le (Nat.pow_le_pow_right (by omega) (by omega)))
      simp [this]
  · simp [h12]

/-- A low mask of k ones keeps the word mod 2^k. -/
theorem and_mask_low (w : Word) (k : Nat) (hk : k ≤ 16) :
    (w &&& BitVec.ofNat 16 (2 ^ k - 1)).toNat = w.toNat % 2 ^ k := by
  have h1 : 2 ^ k - 1 < 2 ^ 16 := by
    have := Nat.pow_le_pow_right (n := 2) (by omega) hk
    have := Nat.two_pow_pos k
    omega
  rw [BitVec.toNat_and, BitVec.toNat_ofNat, Nat.mod_eq_of_lt h1, Nat.and_two_pow_sub_one_eq_mod]

/-- A mask of the high nibble and k low ones keeps both parts. -/
theorem and_mask_op_low (w : Word) (k : Nat) (hk : k ≤ 12) :
    (w &&& (0xF000#16 ||| BitVec.ofNat 16 (2 ^ k - 1))).toNat =
      w.toNat / 0x1000 * 0x1000 + w.toNat % 2 ^ k := by
  rw [BitVec.and_or_distrib_left, BitVec.toNat_or, and_mask_op, and_mask_low w k (by omega)]
  have h2 : w.toNat % 2 ^ k < 2 ^ 12 :=
    (Nat.mod_lt _ (Nat.two_pow_pos k)).trans_le (Nat.pow_le_pow_right (by omega) hk)
  rw [show w.toNat / 0x1000 * 0x1000 = 2 ^ 12 * (w.toNat / 0x1000) by omega,
    ← Nat.two_pow_add_eq_or_of_lt h2]

/-- The mask 0xF00F keeps op and n. -/
theorem and_mask_op_n (w : Word) :
    (w &&& 0xF00F#16).toNat = w.toNat / 0x1000 * 0x1000 + w.toNat % 16 :=
  and_mask_op_low w 4 (by omega)

/-- The mask 0xF0FF keeps op and nn. -/
theorem and_mask_op_nn (w : Word) :
    (w &&& 0xF0FF#16).toNat = w.toNat / 0x1000 * 0x1000 + w.toNat % 256 :=
  and_mask_op_low w 8 (by omega)

theorem formNNN_masked (op : Nat) (nnn : Addr) (h : op < 16) :
    formNNN op nnn &&& 0xF000#16 = BitVec.ofNat 16 (op * 0x1000) := by
  apply BitVec.eq_of_toNat_eq
  rw [and_mask_op, formNNN_toNat op nnn h, BitVec.toNat_ofNat]
  omega

theorem formXNN_masked (op : Nat) (x : Reg) (nn : Byte) (h : op < 16) :
    formXNN op x nn &&& 0xF000#16 = BitVec.ofNat 16 (op * 0x1000) := by
  apply BitVec.eq_of_toNat_eq
  rw [and_mask_op, formXNN_toNat op x nn h, BitVec.toNat_ofNat]
  omega

theorem formXNN_masked_nn (op : Nat) (x : Reg) (nn : Byte) (h : op < 16) :
    formXNN op x nn &&& 0xF0FF#16 = BitVec.ofNat 16 (op * 0x1000 + nn.toNat) := by
  apply BitVec.eq_of_toNat_eq
  rw [and_mask_op_nn, formXNN_toNat op x nn h, BitVec.toNat_ofNat]
  omega

theorem formXYN_masked (op : Nat) (x y : Reg) (n : Fin 16) (h : op < 16) :
    formXYN op x y n &&& 0xF000#16 = BitVec.ofNat 16 (op * 0x1000) := by
  apply BitVec.eq_of_toNat_eq
  rw [and_mask_op, formXYN_toNat op x y n h, BitVec.toNat_ofNat]
  omega

theorem formXYN_masked_n (op : Nat) (x y : Reg) (n : Fin 16) (h : op < 16) :
    formXYN op x y n &&& 0xF00F#16 = BitVec.ofNat 16 (op * 0x1000 + n) := by
  apply BitVec.eq_of_toNat_eq
  rw [and_mask_op_n, formXYN_toNat op x y n h, BitVec.toNat_ofNat]
  omega

/-! ### What selects a row, in the fields of the word -/

/-- A row that fixes every bit. -/
theorem selects_word (m : String) (f w : Word) :
    (⟨m, f, 0xFFFF⟩ : OpcodeRow).selects w = decide (w = f) := by
  have h : w &&& 0xFFFF = w := by
    rw [show (0xFFFF : Word) = BitVec.allOnes 16 from rfl, BitVec.and_allOnes]
  simp only [OpcodeRow.selects, h]
  rfl

/-- A row that fixes op. -/
theorem selects_op (m : String) (f w : Word) :
    (⟨m, f, 0xF000⟩ : OpcodeRow).selects w = decide (opField w * 0x1000 = f.toNat) := by
  rw [Bool.eq_iff_iff]
  simp only [OpcodeRow.selects, beq_iff_eq, decide_eq_true_eq, ← BitVec.toNat_inj]
  rw [show (0xF000 : Word) = 0xF000#16 from rfl, and_mask_op]
  simp only [opField, slice]
  omega

/-- A row that fixes op and n. -/
theorem selects_op_n (m : String) (f w : Word) :
    (⟨m, f, 0xF00F⟩ : OpcodeRow).selects w = decide (opField w * 0x1000 + nField w = f.toNat) := by
  rw [Bool.eq_iff_iff]
  simp only [OpcodeRow.selects, beq_iff_eq, decide_eq_true_eq, ← BitVec.toNat_inj]
  rw [show (0xF00F : Word) = 0xF00F#16 from rfl, and_mask_op_n]
  simp only [opField, nField, slice]
  omega

/-- A row that fixes op and nn. -/
theorem selects_op_nn (m : String) (f w : Word) :
    (⟨m, f, 0xF0FF⟩ : OpcodeRow).selects w =
      decide (opField w * 0x1000 + (nnField w).toNat = f.toNat) := by
  rw [Bool.eq_iff_iff]
  simp only [OpcodeRow.selects, beq_iff_eq, decide_eq_true_eq, ← BitVec.toNat_inj]
  rw [show (0xF0FF : Word) = 0xF0FF#16 from rfl, and_mask_op_nn]
  simp only [opField, nnField, slice, BitVec.toNat_ofNat]
  omega

/-- A word and its fields (R71: the fields overlap). -/
theorem word_fields (w : Word) :
    w.toNat = opField w * 0x1000 + xField w * 0x100 + yField w * 0x10 + nField w ∧
      opField w < 16 ∧ (nnField w).toNat = yField w * 0x10 + nField w ∧
      (nnnField w).toNat = xField w * 0x100 + yField w * 0x10 + nField w := by
  have := w.isLt
  simp only [opField, xField, yField, nField, nnField, nnnField, slice, BitVec.toNat_ofNat]
  omega

end Sys2Proof
end

