-- ==== Sys2Proof/Laws/State.lean ====
section
/-! SUPPORT. What each update of the state does to each field, one lemma per field per update, and to `getV`. -/

namespace Sys2Proof.Machine

variable (s : State)

/-! ### setV -/

@[simp] theorem setV_mem (x : Reg) (b : Byte) : (s.setV x b).mem = s.mem := rfl
@[simp] theorem setV_v (x : Reg) (b : Byte) : (s.setV x b).v = s.v.set x.val b := rfl
@[simp] theorem setV_i (x : Reg) (b : Byte) : (s.setV x b).i = s.i := rfl
@[simp] theorem setV_pc (x : Reg) (b : Byte) : (s.setV x b).pc = s.pc := rfl
@[simp] theorem setV_stack (x : Reg) (b : Byte) : (s.setV x b).stack = s.stack := rfl
@[simp] theorem setV_sp (x : Reg) (b : Byte) : (s.setV x b).sp = s.sp := rfl
@[simp] theorem setV_dt (x : Reg) (b : Byte) : (s.setV x b).dt = s.dt := rfl
@[simp] theorem setV_st (x : Reg) (b : Byte) : (s.setV x b).st = s.st := rfl
@[simp] theorem setV_fb (x : Reg) (b : Byte) : (s.setV x b).fb = s.fb := rfl
@[simp] theorem setV_dirty (x : Reg) (b : Byte) : (s.setV x b).dirty = s.dirty := rfl
@[simp] theorem setV_keys (x : Reg) (b : Byte) : (s.setV x b).keys = s.keys := rfl
@[simp] theorem setV_rand (x : Reg) (b : Byte) : (s.setV x b).rand = s.rand := rfl
@[simp] theorem setV_schedule (x : Reg) (b : Byte) : (s.setV x b).schedule = s.schedule := rfl
@[simp] theorem setV_turn (x : Reg) (b : Byte) : (s.setV x b).turn = s.turn := rfl
@[simp] theorem setV_loaded (x : Reg) (b : Byte) : (s.setV x b).loaded = s.loaded := rfl
@[simp] theorem setV_vfOrder (x : Reg) (b : Byte) : (s.setV x b).vfOrder = s.vfOrder := rfl

/-! ### setI -/

@[simp] theorem setI_mem (w : Word) : (s.setI w).mem = s.mem := rfl
@[simp] theorem setI_v (w : Word) : (s.setI w).v = s.v := rfl
@[simp] theorem setI_i (w : Word) : (s.setI w).i = w := rfl
@[simp] theorem setI_pc (w : Word) : (s.setI w).pc = s.pc := rfl
@[simp] theorem setI_stack (w : Word) : (s.setI w).stack = s.stack := rfl
@[simp] theorem setI_sp (w : Word) : (s.setI w).sp = s.sp := rfl
@[simp] theorem setI_dt (w : Word) : (s.setI w).dt = s.dt := rfl
@[simp] theorem setI_st (w : Word) : (s.setI w).st = s.st := rfl
@[simp] theorem setI_fb (w : Word) : (s.setI w).fb = s.fb := rfl
@[simp] theorem setI_dirty (w : Word) : (s.setI w).dirty = s.dirty := rfl
@[simp] theorem setI_keys (w : Word) : (s.setI w).keys = s.keys := rfl
@[simp] theorem setI_rand (w : Word) : (s.setI w).rand = s.rand := rfl
@[simp] theorem setI_schedule (w : Word) : (s.setI w).schedule = s.schedule := rfl
@[simp] theorem setI_turn (w : Word) : (s.setI w).turn = s.turn := rfl
@[simp] theorem setI_loaded (w : Word) : (s.setI w).loaded = s.loaded := rfl
@[simp] theorem setI_vfOrder (w : Word) : (s.setI w).vfOrder = s.vfOrder := rfl
@[simp] theorem setI_getV (w : Word) (k : Reg) : (s.setI w).getV k = s.getV k := rfl

/-! ### setPc -/

@[simp] theorem setPc_mem (w : Word) : (s.setPc w).mem = s.mem := rfl
@[simp] theorem setPc_v (w : Word) : (s.setPc w).v = s.v := rfl
@[simp] theorem setPc_i (w : Word) : (s.setPc w).i = s.i := rfl
@[simp] theorem setPc_pc (w : Word) : (s.setPc w).pc = w := rfl
@[simp] theorem setPc_stack (w : Word) : (s.setPc w).stack = s.stack := rfl
@[simp] theorem setPc_sp (w : Word) : (s.setPc w).sp = s.sp := rfl
@[simp] theorem setPc_dt (w : Word) : (s.setPc w).dt = s.dt := rfl
@[simp] theorem setPc_st (w : Word) : (s.setPc w).st = s.st := rfl
@[simp] theorem setPc_fb (w : Word) : (s.setPc w).fb = s.fb := rfl
@[simp] theorem setPc_dirty (w : Word) : (s.setPc w).dirty = s.dirty := rfl
@[simp] theorem setPc_keys (w : Word) : (s.setPc w).keys = s.keys := rfl
@[simp] theorem setPc_rand (w : Word) : (s.setPc w).rand = s.rand := rfl
@[simp] theorem setPc_schedule (w : Word) : (s.setPc w).schedule = s.schedule := rfl
@[simp] theorem setPc_turn (w : Word) : (s.setPc w).turn = s.turn := rfl
@[simp] theorem setPc_loaded (w : Word) : (s.setPc w).loaded = s.loaded := rfl
@[simp] theorem setPc_vfOrder (w : Word) : (s.setPc w).vfOrder = s.vfOrder := rfl
@[simp] theorem setPc_getV (w : Word) (k : Reg) : (s.setPc w).getV k = s.getV k := rfl

/-! ### advance -/

@[simp] theorem advance_mem : (s.advance).mem = s.mem := rfl
@[simp] theorem advance_v : (s.advance).v = s.v := rfl
@[simp] theorem advance_i : (s.advance).i = s.i := rfl
@[simp] theorem advance_pc : (s.advance).pc = s.pc + 2 := rfl
@[simp] theorem advance_stack : (s.advance).stack = s.stack := rfl
@[simp] theorem advance_sp : (s.advance).sp = s.sp := rfl
@[simp] theorem advance_dt : (s.advance).dt = s.dt := rfl
@[simp] theorem advance_st : (s.advance).st = s.st := rfl
@[simp] theorem advance_fb : (s.advance).fb = s.fb := rfl
@[simp] theorem advance_dirty : (s.advance).dirty = s.dirty := rfl
@[simp] theorem advance_keys : (s.advance).keys = s.keys := rfl
@[simp] theorem advance_rand : (s.advance).rand = s.rand := rfl
@[simp] theorem advance_schedule : (s.advance).schedule = s.schedule := rfl
@[simp] theorem advance_turn : (s.advance).turn = s.turn := rfl
@[simp] theorem advance_loaded : (s.advance).loaded = s.loaded := rfl
@[simp] theorem advance_vfOrder : (s.advance).vfOrder = s.vfOrder := rfl
@[simp] theorem advance_getV (k : Reg) : (s.advance).getV k = s.getV k := rfl

/-! ### skipIf -/

@[simp] theorem skipIf_mem (c : Bool) : (s.skipIf c).mem = s.mem := rfl
@[simp] theorem skipIf_v (c : Bool) : (s.skipIf c).v = s.v := rfl
@[simp] theorem skipIf_i (c : Bool) : (s.skipIf c).i = s.i := rfl
@[simp] theorem skipIf_pc (c : Bool) : (s.skipIf c).pc = if c then s.pc + 4 else s.pc + 2 := rfl
@[simp] theorem skipIf_stack (c : Bool) : (s.skipIf c).stack = s.stack := rfl
@[simp] theorem skipIf_sp (c : Bool) : (s.skipIf c).sp = s.sp := rfl
@[simp] theorem skipIf_dt (c : Bool) : (s.skipIf c).dt = s.dt := rfl
@[simp] theorem skipIf_st (c : Bool) : (s.skipIf c).st = s.st := rfl
@[simp] theorem skipIf_fb (c : Bool) : (s.skipIf c).fb = s.fb := rfl
@[simp] theorem skipIf_dirty (c : Bool) : (s.skipIf c).dirty = s.dirty := rfl
@[simp] theorem skipIf_keys (c : Bool) : (s.skipIf c).keys = s.keys := rfl
@[simp] theorem skipIf_rand (c : Bool) : (s.skipIf c).rand = s.rand := rfl
@[simp] theorem skipIf_schedule (c : Bool) : (s.skipIf c).schedule = s.schedule := rfl
@[simp] theorem skipIf_turn (c : Bool) : (s.skipIf c).turn = s.turn := rfl
@[simp] theorem skipIf_loaded (c : Bool) : (s.skipIf c).loaded = s.loaded := rfl
@[simp] theorem skipIf_vfOrder (c : Bool) : (s.skipIf c).vfOrder = s.vfOrder := rfl
@[simp] theorem skipIf_getV (c : Bool) (k : Reg) : (s.skipIf c).getV k = s.getV k := rfl

/-! ### setDt -/

@[simp] theorem setDt_mem (b : Byte) : (s.setDt b).mem = s.mem := rfl
@[simp] theorem setDt_v (b : Byte) : (s.setDt b).v = s.v := rfl
@[simp] theorem setDt_i (b : Byte) : (s.setDt b).i = s.i := rfl
@[simp] theorem setDt_pc (b : Byte) : (s.setDt b).pc = s.pc := rfl
@[simp] theorem setDt_stack (b : Byte) : (s.setDt b).stack = s.stack := rfl
@[simp] theorem setDt_sp (b : Byte) : (s.setDt b).sp = s.sp := rfl
@[simp] theorem setDt_dt (b : Byte) : (s.setDt b).dt = b := rfl
@[simp] theorem setDt_st (b : Byte) : (s.setDt b).st = s.st := rfl
@[simp] theorem setDt_fb (b : Byte) : (s.setDt b).fb = s.fb := rfl
@[simp] theorem setDt_dirty (b : Byte) : (s.setDt b).dirty = s.dirty := rfl
@[simp] theorem setDt_keys (b : Byte) : (s.setDt b).keys = s.keys := rfl
@[simp] theorem setDt_rand (b : Byte) : (s.setDt b).rand = s.rand := rfl
@[simp] theorem setDt_schedule (b : Byte) : (s.setDt b).schedule = s.schedule := rfl
@[simp] theorem setDt_turn (b : Byte) : (s.setDt b).turn = s.turn := rfl
@[simp] theorem setDt_loaded (b : Byte) : (s.setDt b).loaded = s.loaded := rfl
@[simp] theorem setDt_vfOrder (b : Byte) : (s.setDt b).vfOrder = s.vfOrder := rfl
@[simp] theorem setDt_getV (b : Byte) (k : Reg) : (s.setDt b).getV k = s.getV k := rfl

/-! ### setSt -/

@[simp] theorem setSt_mem (b : Byte) : (s.setSt b).mem = s.mem := rfl
@[simp] theorem setSt_v (b : Byte) : (s.setSt b).v = s.v := rfl
@[simp] theorem setSt_i (b : Byte) : (s.setSt b).i = s.i := rfl
@[simp] theorem setSt_pc (b : Byte) : (s.setSt b).pc = s.pc := rfl
@[simp] theorem setSt_stack (b : Byte) : (s.setSt b).stack = s.stack := rfl
@[simp] theorem setSt_sp (b : Byte) : (s.setSt b).sp = s.sp := rfl
@[simp] theorem setSt_dt (b : Byte) : (s.setSt b).dt = s.dt := rfl
@[simp] theorem setSt_st (b : Byte) : (s.setSt b).st = b := rfl
@[simp] theorem setSt_fb (b : Byte) : (s.setSt b).fb = s.fb := rfl
@[simp] theorem setSt_dirty (b : Byte) : (s.setSt b).dirty = s.dirty := rfl
@[simp] theorem setSt_keys (b : Byte) : (s.setSt b).keys = s.keys := rfl
@[simp] theorem setSt_rand (b : Byte) : (s.setSt b).rand = s.rand := rfl
@[simp] theorem setSt_schedule (b : Byte) : (s.setSt b).schedule = s.schedule := rfl
@[simp] theorem setSt_turn (b : Byte) : (s.setSt b).turn = s.turn := rfl
@[simp] theorem setSt_loaded (b : Byte) : (s.setSt b).loaded = s.loaded := rfl
@[simp] theorem setSt_vfOrder (b : Byte) : (s.setSt b).vfOrder = s.vfOrder := rfl
@[simp] theorem setSt_getV (b : Byte) (k : Reg) : (s.setSt b).getV k = s.getV k := rfl

/-! ### setMem -/

@[simp] theorem setMem_mem (m : Memory) : (s.setMem m).mem = m := rfl
@[simp] theorem setMem_v (m : Memory) : (s.setMem m).v = s.v := rfl
@[simp] theorem setMem_i (m : Memory) : (s.setMem m).i = s.i := rfl
@[simp] theorem setMem_pc (m : Memory) : (s.setMem m).pc = s.pc := rfl
@[simp] theorem setMem_stack (m : Memory) : (s.setMem m).stack = s.stack := rfl
@[simp] theorem setMem_sp (m : Memory) : (s.setMem m).sp = s.sp := rfl
@[simp] theorem setMem_dt (m : Memory) : (s.setMem m).dt = s.dt := rfl
@[simp] theorem setMem_st (m : Memory) : (s.setMem m).st = s.st := rfl
@[simp] theorem setMem_fb (m : Memory) : (s.setMem m).fb = s.fb := rfl
@[simp] theorem setMem_dirty (m : Memory) : (s.setMem m).dirty = s.dirty := rfl
@[simp] theorem setMem_keys (m : Memory) : (s.setMem m).keys = s.keys := rfl
@[simp] theorem setMem_rand (m : Memory) : (s.setMem m).rand = s.rand := rfl
@[simp] theorem setMem_schedule (m : Memory) : (s.setMem m).schedule = s.schedule := rfl
@[simp] theorem setMem_turn (m : Memory) : (s.setMem m).turn = s.turn := rfl
@[simp] theorem setMem_loaded (m : Memory) : (s.setMem m).loaded = s.loaded := rfl
@[simp] theorem setMem_vfOrder (m : Memory) : (s.setMem m).vfOrder = s.vfOrder := rfl
@[simp] theorem setMem_getV (m : Memory) (k : Reg) : (s.setMem m).getV k = s.getV k := rfl

/-! ### setDisplay -/

@[simp] theorem setDisplay_mem (fb : Framebuffer) : (s.setDisplay fb).mem = s.mem := rfl
@[simp] theorem setDisplay_v (fb : Framebuffer) : (s.setDisplay fb).v = s.v := rfl
@[simp] theorem setDisplay_i (fb : Framebuffer) : (s.setDisplay fb).i = s.i := rfl
@[simp] theorem setDisplay_pc (fb : Framebuffer) : (s.setDisplay fb).pc = s.pc := rfl
@[simp] theorem setDisplay_stack (fb : Framebuffer) : (s.setDisplay fb).stack = s.stack := rfl
@[simp] theorem setDisplay_sp (fb : Framebuffer) : (s.setDisplay fb).sp = s.sp := rfl
@[simp] theorem setDisplay_dt (fb : Framebuffer) : (s.setDisplay fb).dt = s.dt := rfl
@[simp] theorem setDisplay_st (fb : Framebuffer) : (s.setDisplay fb).st = s.st := rfl
@[simp] theorem setDisplay_fb (fb : Framebuffer) : (s.setDisplay fb).fb = fb := rfl
@[simp] theorem setDisplay_dirty (fb : Framebuffer) : (s.setDisplay fb).dirty = true := rfl
@[simp] theorem setDisplay_keys (fb : Framebuffer) : (s.setDisplay fb).keys = s.keys := rfl
@[simp] theorem setDisplay_rand (fb : Framebuffer) : (s.setDisplay fb).rand = s.rand := rfl
@[simp] theorem setDisplay_schedule (fb : Framebuffer) : (s.setDisplay fb).schedule = s.schedule := rfl
@[simp] theorem setDisplay_turn (fb : Framebuffer) : (s.setDisplay fb).turn = s.turn := rfl
@[simp] theorem setDisplay_loaded (fb : Framebuffer) : (s.setDisplay fb).loaded = s.loaded := rfl
@[simp] theorem setDisplay_vfOrder (fb : Framebuffer) : (s.setDisplay fb).vfOrder = s.vfOrder := rfl
@[simp] theorem setDisplay_getV (fb : Framebuffer) (k : Reg) : (s.setDisplay fb).getV k = s.getV k := rfl

/-! ### tickTimers -/

@[simp] theorem tickTimers_mem : (tickTimers s).mem = s.mem := rfl
@[simp] theorem tickTimers_v : (tickTimers s).v = s.v := rfl
@[simp] theorem tickTimers_i : (tickTimers s).i = s.i := rfl
@[simp] theorem tickTimers_pc : (tickTimers s).pc = s.pc := rfl
@[simp] theorem tickTimers_stack : (tickTimers s).stack = s.stack := rfl
@[simp] theorem tickTimers_sp : (tickTimers s).sp = s.sp := rfl
@[simp] theorem tickTimers_dt : (tickTimers s).dt = tickDown s.dt := rfl
@[simp] theorem tickTimers_st : (tickTimers s).st = tickDown s.st := rfl
@[simp] theorem tickTimers_fb : (tickTimers s).fb = s.fb := rfl
@[simp] theorem tickTimers_dirty : (tickTimers s).dirty = s.dirty := rfl
@[simp] theorem tickTimers_keys : (tickTimers s).keys = s.keys := rfl
@[simp] theorem tickTimers_rand : (tickTimers s).rand = s.rand := rfl
@[simp] theorem tickTimers_schedule : (tickTimers s).schedule = s.schedule := rfl
@[simp] theorem tickTimers_turn : (tickTimers s).turn = s.turn := rfl
@[simp] theorem tickTimers_loaded : (tickTimers s).loaded = s.loaded := rfl
@[simp] theorem tickTimers_vfOrder : (tickTimers s).vfOrder = s.vfOrder := rfl
@[simp] theorem tickTimers_getV (k : Reg) : (tickTimers s).getV k = s.getV k := rfl

/-! ### clearDirty -/

@[simp] theorem clearDirty_mem : (clearDirty s).mem = s.mem := rfl
@[simp] theorem clearDirty_v : (clearDirty s).v = s.v := rfl
@[simp] theorem clearDirty_i : (clearDirty s).i = s.i := rfl
@[simp] theorem clearDirty_pc : (clearDirty s).pc = s.pc := rfl
@[simp] theorem clearDirty_stack : (clearDirty s).stack = s.stack := rfl
@[simp] theorem clearDirty_sp : (clearDirty s).sp = s.sp := rfl
@[simp] theorem clearDirty_dt : (clearDirty s).dt = s.dt := rfl
@[simp] theorem clearDirty_st : (clearDirty s).st = s.st := rfl
@[simp] theorem clearDirty_fb : (clearDirty s).fb = s.fb := rfl
@[simp] theorem clearDirty_dirty : (clearDirty s).dirty = false := rfl
@[simp] theorem clearDirty_keys : (clearDirty s).keys = s.keys := rfl
@[simp] theorem clearDirty_rand : (clearDirty s).rand = s.rand := rfl
@[simp] theorem clearDirty_schedule : (clearDirty s).schedule = s.schedule := rfl
@[simp] theorem clearDirty_turn : (clearDirty s).turn = s.turn := rfl
@[simp] theorem clearDirty_loaded : (clearDirty s).loaded = s.loaded := rfl
@[simp] theorem clearDirty_vfOrder : (clearDirty s).vfOrder = s.vfOrder := rfl
@[simp] theorem clearDirty_getV (k : Reg) : (clearDirty s).getV k = s.getV k := rfl

/-! ### applyTurn -/

@[simp] theorem applyTurn_mem (t : Config.HostTurn) : (applyTurn t s).mem = s.mem := rfl
@[simp] theorem applyTurn_v (t : Config.HostTurn) : (applyTurn t s).v = s.v := rfl
@[simp] theorem applyTurn_i (t : Config.HostTurn) : (applyTurn t s).i = s.i := rfl
@[simp] theorem applyTurn_pc (t : Config.HostTurn) : (applyTurn t s).pc = s.pc := rfl
@[simp] theorem applyTurn_stack (t : Config.HostTurn) : (applyTurn t s).stack = s.stack := rfl
@[simp] theorem applyTurn_sp (t : Config.HostTurn) : (applyTurn t s).sp = s.sp := rfl
@[simp] theorem applyTurn_dt (t : Config.HostTurn) : (applyTurn t s).dt = countdown t.ticks s.dt := rfl
@[simp] theorem applyTurn_st (t : Config.HostTurn) : (applyTurn t s).st = countdown t.ticks s.st := rfl
@[simp] theorem applyTurn_fb (t : Config.HostTurn) : (applyTurn t s).fb = s.fb := rfl
@[simp] theorem applyTurn_dirty (t : Config.HostTurn) : (applyTurn t s).dirty = (s.dirty && !t.clears) := rfl
@[simp] theorem applyTurn_keys (t : Config.HostTurn) : (applyTurn t s).keys = t.keys := rfl
@[simp] theorem applyTurn_rand (t : Config.HostTurn) : (applyTurn t s).rand = t.rand := rfl
@[simp] theorem applyTurn_schedule (t : Config.HostTurn) : (applyTurn t s).schedule = s.schedule := rfl
@[simp] theorem applyTurn_turn (t : Config.HostTurn) : (applyTurn t s).turn = s.turn := rfl
@[simp] theorem applyTurn_loaded (t : Config.HostTurn) : (applyTurn t s).loaded = s.loaded := rfl
@[simp] theorem applyTurn_vfOrder (t : Config.HostTurn) : (applyTurn t s).vfOrder = s.vfOrder := rfl
@[simp] theorem applyTurn_getV (t : Config.HostTurn) (k : Reg) : (applyTurn t s).getV k = s.getV k := rfl

/-! ### hostTurn -/

@[simp] theorem hostTurn_mem : (hostTurn s).mem = s.mem := rfl
@[simp] theorem hostTurn_v : (hostTurn s).v = s.v := rfl
@[simp] theorem hostTurn_i : (hostTurn s).i = s.i := rfl
@[simp] theorem hostTurn_pc : (hostTurn s).pc = s.pc := rfl
@[simp] theorem hostTurn_stack : (hostTurn s).stack = s.stack := rfl
@[simp] theorem hostTurn_sp : (hostTurn s).sp = s.sp := rfl
@[simp] theorem hostTurn_dt : (hostTurn s).dt = countdown (nextTurn s).ticks s.dt := rfl
@[simp] theorem hostTurn_st : (hostTurn s).st = countdown (nextTurn s).ticks s.st := rfl
@[simp] theorem hostTurn_fb : (hostTurn s).fb = s.fb := rfl
@[simp] theorem hostTurn_dirty : (hostTurn s).dirty = (s.dirty && !(nextTurn s).clears) := rfl
@[simp] theorem hostTurn_keys : (hostTurn s).keys = (nextTurn s).keys := rfl
@[simp] theorem hostTurn_rand : (hostTurn s).rand = (nextTurn s).rand := rfl
@[simp] theorem hostTurn_schedule : (hostTurn s).schedule = s.schedule.tail := rfl
@[simp] theorem hostTurn_turn : (hostTurn s).turn = s.turn + 1 := rfl
@[simp] theorem hostTurn_loaded : (hostTurn s).loaded = s.loaded := rfl
@[simp] theorem hostTurn_vfOrder : (hostTurn s).vfOrder = s.vfOrder := rfl
@[simp] theorem hostTurn_getV (k : Reg) : (hostTurn s).getV k = s.getV k := rfl

/-! ### loadRange -/

@[simp] theorem loadRange_mem (x : Reg) (bs : List Byte) : (loadRange s x bs).mem = s.mem := rfl
@[simp] theorem loadRange_v (x : Reg) (bs : List Byte) : (loadRange s x bs).v = loadRegs s.v bs := rfl
@[simp] theorem loadRange_i (x : Reg) (bs : List Byte) : (loadRange s x bs).i = s.i + BitVec.ofNat 16 (rangeCount x) := rfl
@[simp] theorem loadRange_pc (x : Reg) (bs : List Byte) : (loadRange s x bs).pc = s.pc + 2 := rfl
@[simp] theorem loadRange_stack (x : Reg) (bs : List Byte) : (loadRange s x bs).stack = s.stack := rfl
@[simp] theorem loadRange_sp (x : Reg) (bs : List Byte) : (loadRange s x bs).sp = s.sp := rfl
@[simp] theorem loadRange_dt (x : Reg) (bs : List Byte) : (loadRange s x bs).dt = s.dt := rfl
@[simp] theorem loadRange_st (x : Reg) (bs : List Byte) : (loadRange s x bs).st = s.st := rfl
@[simp] theorem loadRange_fb (x : Reg) (bs : List Byte) : (loadRange s x bs).fb = s.fb := rfl
@[simp] theorem loadRange_dirty (x : Reg) (bs : List Byte) : (loadRange s x bs).dirty = s.dirty := rfl
@[simp] theorem loadRange_keys (x : Reg) (bs : List Byte) : (loadRange s x bs).keys = s.keys := rfl
@[simp] theorem loadRange_rand (x : Reg) (bs : List Byte) : (loadRange s x bs).rand = s.rand := rfl
@[simp] theorem loadRange_schedule (x : Reg) (bs : List Byte) : (loadRange s x bs).schedule = s.schedule := rfl
@[simp] theorem loadRange_turn (x : Reg) (bs : List Byte) : (loadRange s x bs).turn = s.turn := rfl
@[simp] theorem loadRange_loaded (x : Reg) (bs : List Byte) : (loadRange s x bs).loaded = s.loaded := rfl
@[simp] theorem loadRange_vfOrder (x : Reg) (bs : List Byte) : (loadRange s x bs).vfOrder = s.vfOrder := rfl

/-! ### drawSprite -/

@[simp] theorem drawSprite_mem (x y : Reg) (bs : List Byte) : (drawSprite s x y bs).mem = s.mem := rfl
@[simp] theorem drawSprite_v (x y : Reg) (bs : List Byte) : (drawSprite s x y bs).v = s.v.set 15 (flagByte (drawCells (spriteCells (s.getV x).toNat (s.getV y).toNat 0 bs) s.fb false).2) := rfl
@[simp] theorem drawSprite_i (x y : Reg) (bs : List Byte) : (drawSprite s x y bs).i = s.i := rfl
@[simp] theorem drawSprite_pc (x y : Reg) (bs : List Byte) : (drawSprite s x y bs).pc = s.pc + 2 := rfl
@[simp] theorem drawSprite_stack (x y : Reg) (bs : List Byte) : (drawSprite s x y bs).stack = s.stack := rfl
@[simp] theorem drawSprite_sp (x y : Reg) (bs : List Byte) : (drawSprite s x y bs).sp = s.sp := rfl
@[simp] theorem drawSprite_dt (x y : Reg) (bs : List Byte) : (drawSprite s x y bs).dt = s.dt := rfl
@[simp] theorem drawSprite_st (x y : Reg) (bs : List Byte) : (drawSprite s x y bs).st = s.st := rfl
@[simp] theorem drawSprite_fb (x y : Reg) (bs : List Byte) : (drawSprite s x y bs).fb = (drawCells (spriteCells (s.getV x).toNat (s.getV y).toNat 0 bs) s.fb false).1 := rfl
@[simp] theorem drawSprite_dirty (x y : Reg) (bs : List Byte) : (drawSprite s x y bs).dirty = true := rfl
@[simp] theorem drawSprite_keys (x y : Reg) (bs : List Byte) : (drawSprite s x y bs).keys = s.keys := rfl
@[simp] theorem drawSprite_rand (x y : Reg) (bs : List Byte) : (drawSprite s x y bs).rand = s.rand := rfl
@[simp] theorem drawSprite_schedule (x y : Reg) (bs : List Byte) : (drawSprite s x y bs).schedule = s.schedule := rfl
@[simp] theorem drawSprite_turn (x y : Reg) (bs : List Byte) : (drawSprite s x y bs).turn = s.turn := rfl
@[simp] theorem drawSprite_loaded (x y : Reg) (bs : List Byte) : (drawSprite s x y bs).loaded = s.loaded := rfl
@[simp] theorem drawSprite_vfOrder (x y : Reg) (bs : List Byte) : (drawSprite s x y bs).vfOrder = s.vfOrder := rfl

end Sys2Proof.Machine
end

