-- ==== Sys2Proof/Laws/Framebuffer.lean ====
section
/-! SUPPORT. The laws of the framebuffer: a cell read after a write, and what drawing a list of cells does
(40_display.md R101 to R103). -/

namespace Sys2Proof.Machine

theorem cell_setCell (fb : Framebuffer) (r r' : Fin 32) (c c' : Fin 64) (b : Bool) :
    (fb.setCell r c b).cell r' c' = if r' = r ∧ c' = c then b else fb.cell r' c' := by
  simp only [Framebuffer.cell, Framebuffer.setCell, Vector.getElem_set]
  by_cases hr : r = r'
  · subst hr
    by_cases hc : c = c'
    · subst hc; simp
    · simp [Fin.val_inj, hc, Ne.symm hc]
  · simp [Fin.val_inj, hr, Ne.symm hr]

@[simp] theorem cell_cleared (r : Fin 32) (c : Fin 64) : Framebuffer.cleared.cell r c = false := by
  simp [Framebuffer.cell, Framebuffer.cleared]

/-- `xor_pixel` inverts its cell and no other, and returns the previous value (R102). -/
theorem cell_xorPixel (fb : Framebuffer) (r r' : Fin 32) (c c' : Fin 64) :
    (fb.xorPixel r c).2.cell r' c' = (fb.cell r' c' ^^ decide (r' = r ∧ c' = c)) := by
  simp only [Framebuffer.xorPixel, cell_setCell]
  by_cases h : r' = r ∧ c' = c
  · obtain ⟨rfl, rfl⟩ := h
    simp
  · simp [h]

@[simp] theorem xorPixel_fst (fb : Framebuffer) (r : Fin 32) (c : Fin 64) :
    (fb.xorPixel r c).1 = fb.cell r c := rfl

/-- Drawing distinct cells inverts exactly those, and the collision bit says whether one of them was set
before (R103). -/
theorem drawCells_spec (cells : List (Fin 32 × Fin 64)) (fb : Framebuffer) (b : Bool)
    (h : cells.Nodup) :
    (∀ r c, (drawCells cells fb b).1.cell r c = (fb.cell r c ^^ decide ((r, c) ∈ cells))) ∧
      ((drawCells cells fb b).2 = true ↔ b = true ∨ ∃ p ∈ cells, fb.cell p.1 p.2 = true) := by
  induction cells generalizing fb b with
  | nil => simp [drawCells]
  | cons p cells ih =>
    obtain ⟨r, c⟩ := p
    obtain ⟨hp, hn⟩ := List.nodup_cons.mp h
    obtain ⟨ih1, ih2⟩ := ih (fb.xorPixel r c).2 (b || (fb.xorPixel r c).1) hn
    simp only [drawCells]
    refine ⟨fun r' c' => ?_, ?_⟩
    · rw [ih1, cell_xorPixel]
      by_cases h' : r' = r ∧ c' = c
      · obtain ⟨rfl, rfl⟩ := h'
        simp [hp]
      · have : ¬ (r', c') = (r, c) := by simpa using h'
        simp [h', this]
    · rw [ih2]
      have hother : ∀ q ∈ cells, (fb.xorPixel r c).2.cell q.1 q.2 = fb.cell q.1 q.2 := by
        intro q hq
        have : ¬ (q.1 = r ∧ q.2 = c) := by
          rintro ⟨h1, h2⟩
          exact hp ((Prod.ext h1 h2 : q = (r, c)) ▸ hq)
        simp [cell_xorPixel, this]
      constructor
      · rintro (h1 | ⟨q, hq, h1⟩)
        · rcases Bool.or_eq_true_iff.mp h1 with h1 | h1
          · exact .inl h1
          · exact .inr ⟨(r, c), by simp, h1⟩
        · exact .inr ⟨q, by simp [hq], hother q hq ▸ h1⟩
      · rintro (h1 | ⟨q, hq, h1⟩)
        · exact .inl (by simp [h1])
        · rcases List.mem_cons.mp hq with rfl | hq
          · exact .inl (by simpa using Or.inr h1)
          · exact .inr ⟨q, hq, (hother q hq).symm ▸ h1⟩

theorem mem_spriteRowCells (vx vy row : Nat) (b : Byte) (r : Fin 32) (c : Fin 64) :
    (r, c) ∈ spriteRowCells vx vy row b ↔
      ∃ col < 8, b.getLsbD (7 - col) = true ∧ (vy + row) % 32 = r.val ∧ (vx + col) % 64 = c.val := by
  simp only [spriteRowCells, List.mem_filterMap, List.mem_range, Config.spriteWidth]
  constructor
  · rintro ⟨col, hcol, h⟩
    split at h
    · next hb =>
      obtain ⟨rfl, rfl⟩ := by simpa using h
      exact ⟨col, hcol, hb, rfl, rfl⟩
    · simp at h
  · rintro ⟨col, hcol, hb, hr, hc⟩
    exact ⟨col, hcol, by simp [hb, Fin.ext_iff, hr, hc]⟩

/-- The cells that a sprite's set bits address (R101). -/
theorem mem_spriteCells (vx vy row : Nat) (bs : List Byte) (r : Fin 32) (c : Fin 64) :
    (r, c) ∈ spriteCells vx vy row bs ↔
      ∃ k b, bs[k]? = some b ∧ ∃ col < 8, b.getLsbD (7 - col) = true ∧
        (vy + (row + k)) % 32 = r.val ∧ (vx + col) % 64 = c.val := by
  induction bs generalizing row with
  | nil => simp [spriteCells]
  | cons b bs ih =>
    rw [spriteCells, List.mem_append, mem_spriteRowCells, ih]
    constructor
    · rintro (h | ⟨k, b', hk, h⟩)
      · exact ⟨0, b, rfl, h⟩
      · exact ⟨k + 1, b', hk, by rwa [show row + (k + 1) = row + 1 + k by omega]⟩
    · rintro ⟨k, b', hk, h⟩
      cases k with
      | zero => obtain rfl : b = b' := by simpa using hk
                exact .inl h
      | succ k => exact .inr ⟨k, b', by simpa using hk, by rwa [show row + 1 + k = row + (k + 1) by omega]⟩

theorem spriteRowCells_nodup (vx vy row : Nat) (b : Byte) : (spriteRowCells vx vy row b).Nodup := by
  refine List.pairwise_filterMap.mpr (List.pairwise_lt_range.imp_of_mem ?_)
  intro col col' hcol hcol' hlt p hp q hq hpq
  simp only [List.mem_range, Config.spriteWidth] at hcol hcol'
  split at hp <;> split at hq <;> simp only [Option.some.injEq, reduceCtorEq] at hp hq
  subst hp
  have := congrArg (fun p => p.2.val) (hpq.trans hq.symm)
  simp only [Fin.val_ofNat] at this
  omega

/-- No two set bits of a sprite of at most 32 rows address the same cell (R103). -/
theorem spriteCells_nodup (vx vy row : Nat) (bs : List Byte) (h : bs.length ≤ 32) :
    (spriteCells vx vy row bs).Nodup := by
  induction bs generalizing row with
  | nil => simp [spriteCells]
  | cons b bs ih =>
    simp only [List.length_cons] at h
    refine List.nodup_append'.mpr ⟨spriteRowCells_nodup .., ih _ (by omega), fun p hp hq => ?_⟩
    obtain ⟨r, c⟩ := p
    obtain ⟨_, _, _, hr, _⟩ := (mem_spriteRowCells ..).mp hp
    obtain ⟨k, b', hk, _, _, _, hr', _⟩ := (mem_spriteCells ..).mp hq
    have : k < bs.length := by
      by_contra hlt
      simp [List.getElem?_eq_none (Nat.le_of_not_lt hlt)] at hk
    omega

end Sys2Proof.Machine
end

