-- ==== Sys2Proof/Laws/Memory.lean ====
section
/-! SUPPORT. The laws of memory: a read after a write, the canonical form kept by every operation, and what a run
of byte reads or writes answers (20_memory.md R51 to R54). -/

namespace Sys2Proof.Machine

/-! ### Reads after writes -/

@[simp] theorem Memory.read_nil (a : Nat) : Memory.read [] a = initialByte a := rfl

theorem Memory.read_insert_self (m : Memory) (a : Nat) (b : Byte) (h : ∀ c ∈ m, c.1 ≠ a) :
    (m.insert a b).read a = b := by
  induction m with
  | nil => simp [Memory.insert, Memory.read]
  | cons c m ih =>
    obtain ⟨k, v⟩ := c
    have hk : k ≠ a := h (k, v) (by simp)
    by_cases hlt : a < k
    · simp [Memory.insert, hlt, Memory.read]
    · simp [Memory.insert, hlt, Memory.read, hk, ih fun c hc => h c (by simp [hc])]

theorem Memory.read_insert_other (m : Memory) {a a' : Nat} (b : Byte) (h : a ≠ a') :
    (m.insert a b).read a' = m.read a' := by
  induction m with
  | nil => simp [Memory.insert, Memory.read, h]
  | cons c m ih =>
    obtain ⟨k, v⟩ := c
    by_cases hlt : a < k <;> simp [Memory.insert, hlt, Memory.read, h, ih]

theorem Memory.erase_ne (m : Memory) (a : Nat) : ∀ c ∈ m.erase a, c.1 ≠ a := by
  simp [Memory.erase]

theorem Memory.read_of_unlisted (m : Memory) (a : Nat) (h : ∀ c ∈ m, c.1 ≠ a) :
    m.read a = initialByte a := by
  induction m with
  | nil => rfl
  | cons c m ih =>
    have hc : c.1 ≠ a := h c (by simp)
    simp [Memory.read, hc, ih fun c hc => h c (by simp [hc])]

theorem Memory.read_erase_other (m : Memory) {a a' : Nat} (h : a ≠ a') :
    (m.erase a).read a' = m.read a' := by
  induction m with
  | nil => rfl
  | cons c m ih =>
    obtain ⟨k, v⟩ := c
    simp only [Memory.erase, ne_eq, decide_not] at ih ⊢
    by_cases hk : k = a
    · subst hk; simp [Memory.read, h, ih]
    · simp [hk, Memory.read, ih]

/-- Reading the address just written gives the byte written. -/
@[simp] theorem Memory.read_write_self (m : Memory) (a : Nat) (b : Byte) :
    (m.write a b).read a = b := by
  unfold Memory.write
  split
  · next h => rw [Memory.read_of_unlisted _ _ (m.erase_ne a), h]
  · exact Memory.read_insert_self _ _ _ (m.erase_ne a)

/-- A write leaves every other address alone (R54). -/
theorem Memory.read_write_other (m : Memory) {a a' : Nat} (b : Byte) (h : a ≠ a') :
    (m.write a b).read a' = m.read a' := by
  unfold Memory.write
  split
  · exact m.read_erase_other h
  · rw [Memory.read_insert_other _ _ h, m.read_erase_other h]

theorem Memory.read_writeAll_outside (m : Memory) (a : Nat) (bs : List Byte) (a' : Nat)
    (h : a' < a ∨ a + bs.length ≤ a') : (m.writeAll a bs).read a' = m.read a' := by
  induction bs generalizing m a with
  | nil => rfl
  | cons b bs ih =>
    simp only [List.length_cons] at h
    rw [Memory.writeAll, ih _ _ (by omega), m.read_write_other _ (by omega)]

theorem Memory.read_writeAll_inside (m : Memory) (a : Nat) (bs : List Byte) (k : Nat) (b : Byte)
    (h : bs[k]? = some b) : (m.writeAll a bs).read (a + k) = b := by
  induction bs generalizing m a k with
  | nil => simp at h
  | cons c bs ih =>
    rw [Memory.writeAll]
    cases k with
    | zero =>
      rw [Memory.read_writeAll_outside _ _ _ _ (by omega)]
      simpa using h
    | succ k =>
      have := ih (m.write a c) (a + 1) k (by simpa using h)
      rwa [show a + (k + 1) = a + 1 + k by omega]

/-! ### The canonical form -/

theorem Memory.wf_nil : Memory.wf [] := by decide

theorem Memory.wf_erase {m : Memory} (h : m.wf) (a : Nat) : (m.erase a).wf :=
  ⟨h.1.filter _, fun c hc => h.2 c (List.mem_of_mem_filter hc)⟩

theorem Memory.mem_insert (m : Memory) (a : Nat) (b : Byte) (c : Host.Cell) :
    c ∈ m.insert a b ↔ c = (a, b) ∨ c ∈ m := by
  induction m with
  | nil => simp [Memory.insert]
  | cons d m ih =>
    obtain ⟨k, v⟩ := d
    by_cases hlt : a < k
    · simp [Memory.insert, hlt]
    · simp only [Memory.insert, hlt, if_false, List.mem_cons, ih]
      tauto

theorem Memory.wf_insert {m : Memory} (h : m.wf) {a : Nat} {b : Byte} (ha : a < Config.memSize)
    (hb : b ≠ initialByte a) (hn : ∀ c ∈ m, c.1 ≠ a) : (m.insert a b).wf := by
  refine ⟨?_, fun c hc => ?_⟩
  · replace h := h.1
    induction m with
    | nil => simp [Memory.insert]
    | cons d m ih =>
      obtain ⟨k, v⟩ := d
      obtain ⟨hd, hm⟩ := List.pairwise_cons.mp h
      have hk : k ≠ a := hn (k, v) (by simp)
      by_cases hlt : a < k
      · simp only [Memory.insert, hlt, if_true]
        refine List.pairwise_cons.mpr ⟨fun c hc => ?_, h⟩
        rcases List.mem_cons.mp hc with rfl | hc
        · exact hlt
        · exact hlt.trans (hd c hc)
      · simp only [Memory.insert, hlt, if_false]
        refine List.pairwise_cons.mpr
          ⟨fun c hc => ?_, ih (fun c hc => hn c (by simp [hc])) hm⟩
        rcases (Memory.mem_insert _ _ _ _).mp hc with rfl | hc
        · show k < a
          omega
        · exact hd c hc
  · rcases (Memory.mem_insert _ _ _ _).mp hc with rfl | hc
    · exact ⟨ha, hb⟩
    · exact h.2 c hc

/-- A write to an address of the address space keeps the canonical form. -/
theorem Memory.wf_write {m : Memory} (h : m.wf) {a : Nat} (ha : a < Config.memSize) (b : Byte) :
    (m.write a b).wf := by
  unfold Memory.write
  split
  · exact Memory.wf_erase h a
  · next hb => exact Memory.wf_insert (Memory.wf_erase h a) ha hb (m.erase_ne a)

theorem Memory.wf_writeAll {m : Memory} (h : m.wf) (a : Nat) (bs : List Byte)
    (ha : a + bs.length ≤ Config.memSize) : (m.writeAll a bs).wf := by
  induction bs generalizing m a with
  | nil => exact h
  | cons b bs ih =>
    simp only [List.length_cons] at ha
    exact ih (Memory.wf_write h (by omega) b) (a + 1) (by omega)

/-! ### Runs of byte accesses -/

/-- A run of reads inside the address space answers the bytes, in order (R54). -/
theorem memReadMany_ok (s : State) (a n : Nat) (h : a + n ≤ Config.memSize ∨ n = 0) :
    memReadMany s a n = .ok ((List.range n).map fun k => s.mem.read (a + k)) := by
  induction n generalizing a with
  | zero => rfl
  | succ n ih =>
    have ha : a < Config.memSize := by omega
    simp only [memReadMany, memRead, ha, if_true, ih (a + 1) (by omega), List.range_succ_eq_map,
      List.map_cons, List.map_map, Nat.add_zero]
    simp [Function.comp_def, Nat.add_assoc, Nat.add_comm 1]

/-- A run of reads that leaves the address space answers the first address outside it (R51, R218). -/
theorem memReadMany_error (s : State) (a n : Nat) (hn : n ≠ 0) (h : Config.memSize < a + n) :
    memReadMany s a n = .error (.addressOutOfRange (max a 4096) s.pc) := by
  induction n generalizing a with
  | zero => exact absurd rfl hn
  | succ n ih =>
    by_cases ha : a < Config.memSize
    · have hn' : n ≠ 0 := by rintro rfl; omega
      simp only [memReadMany, memRead, ha, if_true, ih (a + 1) hn' (by omega)]
      congr 2
      simp only [Config.memSize] at *
      omega
    · simp only [memReadMany, memRead, ha, if_false]
      congr 2
      simp only [Config.memSize] at *
      omega

/-- A run of writes inside the address space answers the memory with the bytes written (R52, R54). -/
theorem memWriteMany_ok (pc : Word) (m : Memory) (a : Nat) (bs : List Byte)
    (h : a + bs.length ≤ Config.memSize) : memWriteMany pc m a bs = .ok (m.writeAll a bs) := by
  induction bs generalizing m a with
  | nil => rfl
  | cons b bs ih =>
    simp only [List.length_cons] at h
    have ha : a < Config.memSize := by omega
    simp only [memWriteMany, memWrite, ha, if_true, Memory.writeAll]
    exact ih _ _ (by omega)

/-- A run of writes that leaves the address space answers the first address outside it and no memory (R9, R52, R218). -/
theorem memWriteMany_error (pc : Word) (m : Memory) (a : Nat) (bs : List Byte) (hn : bs ≠ [])
    (h : Config.memSize < a + bs.length) :
    memWriteMany pc m a bs = .error (.addressOutOfRange (max a 4096) pc) := by
  induction bs generalizing m a with
  | nil => exact absurd rfl hn
  | cons b bs ih =>
    simp only [List.length_cons] at h
    by_cases ha : a < Config.memSize
    · have hn' : bs ≠ [] := by rintro rfl; simp at h; omega
      simp only [memWriteMany, memWrite, ha, if_true, ih _ (a + 1) hn' (by omega)]
      congr 2
      simp only [Config.memSize] at *
      omega
    · simp only [memWriteMany, memWrite, ha, if_false]
      congr 2
      simp only [Config.memSize] at *
      omega

/-- Whatever a run of reads answers, it is one of the two above. -/
theorem memReadMany_cases (s : State) (a n : Nat) :
    ((a + n ≤ Config.memSize ∨ n = 0) ∧
      memReadMany s a n = .ok ((List.range n).map fun k => s.mem.read (a + k))) ∨
    (n ≠ 0 ∧ Config.memSize < a + n ∧
      memReadMany s a n = .error (.addressOutOfRange (max a 4096) s.pc)) := by
  by_cases h : a + n ≤ Config.memSize ∨ n = 0
  · exact .inl ⟨h, memReadMany_ok s a n h⟩
  · exact .inr ⟨by omega, by omega, memReadMany_error s a n (by omega) (by omega)⟩

/-- Whatever a run of writes answers, it is one of the two above. -/
theorem memWriteMany_cases (pc : Word) (m : Memory) (a : Nat) (bs : List Byte) (hn : bs ≠ []) :
    (a + bs.length ≤ Config.memSize ∧ memWriteMany pc m a bs = .ok (m.writeAll a bs)) ∨
    (Config.memSize < a + bs.length ∧
      memWriteMany pc m a bs = .error (.addressOutOfRange (max a 4096) pc)) := by
  by_cases h : a + bs.length ≤ Config.memSize
  · exact .inl ⟨h, memWriteMany_ok pc m a bs h⟩
  · exact .inr ⟨by omega, memWriteMany_error pc m a bs hn (by omega)⟩

/-- What a fetch answers (R55). -/
theorem fetch_cases (s : State) :
    (s.pc.toNat + 1 < Config.memSize ∧
      fetch s = .ok (bytePair (s.mem.read s.pc.toNat) (s.mem.read (s.pc.toNat + 1)))) ∨
    (s.pc.toNat + 1 = Config.memSize ∧ fetch s = .error (.addressOutOfRange 4096 s.pc)) ∨
    (Config.memSize ≤ s.pc.toNat ∧ fetch s = .error (.addressOutOfRange s.pc.toNat s.pc)) := by
  rcases Nat.lt_trichotomy (s.pc.toNat + 1) Config.memSize with h | h | h
  · refine .inl ⟨h, ?_⟩
    have h' : s.pc.toNat < Config.memSize := by omega
    simp [fetch, memRead, h, h']
  · refine .inr (.inl ⟨h, ?_⟩)
    have h' : s.pc.toNat < Config.memSize := by omega
    simp [fetch, memRead, h, h']
  · refine .inr (.inr ⟨by omega, ?_⟩)
    have h' : ¬ s.pc.toNat < Config.memSize := by omega
    simp [fetch, memRead, h']

end Sys2Proof.Machine
end

