-- ==== Sys2Proof/Laws/Registers.lean ====
section
/-! SUPPORT. What the shared register, flag, stack and key operations do (10_state.md R21, R28; 42_alu.md R142;
43_index_memory.md R175; 44_keypad_timer.md R192). -/

namespace Sys2Proof.Machine

/-- A register read after a write (R21). -/
theorem getV_setV (s : State) (x k : Reg) (b : Byte) :
    (s.setV x b).getV k = if k = x then b else s.getV k := by
  simp only [State.getV, State.setV, Vector.getElem_set, Fin.ext_iff, eq_comm (a := x.val)]

@[simp] theorem getV_setV_self (s : State) (x : Reg) (b : Byte) : (s.setV x b).getV x = b := by
  simp [getV_setV]

theorem getV_setV_other (s : State) {x k : Reg} (b : Byte) (h : k ≠ x) :
    (s.setV x b).getV k = s.getV k := by
  simp [getV_setV, h]

theorem getV_advance_setV (s : State) (x k : Reg) (b : Byte) :
    ((s.setV x b).advance).getV k = if k = x then b else s.getV k := by
  rw [advance_getV, getV_setV]

/-- The registers that `WriteResultAndFlag` leaves (R142). -/
theorem writeResultAndFlag_getV (s : State) (x k : Reg) (r f : Byte) :
    (writeResultAndFlag s x r f).getV k =
      if k = x ∧ (k = VF → s.vfOrder = .resultLast) then r
      else if k = VF then f else s.getV k := by
  unfold writeResultAndFlag
  cases h : s.vfOrder <;> simp only [getV_setV]
  · by_cases hk : k = VF <;> simp [hk]
  · by_cases hk : k = x <;> simp [hk]

/-- `WriteResultAndFlag` writes registers and nothing else. -/
theorem writeResultAndFlag_eq (s : State) (x : Reg) (r f : Byte) :
    writeResultAndFlag s x r f = { s with v := (writeResultAndFlag s x r f).v } := by
  obtain ⟨⟩ := s
  rename_i order
  cases order <;> rfl

@[simp] theorem writeResultAndFlag_mem (s : State) (x : Reg) (r f : Byte) :
    (writeResultAndFlag s x r f).mem = s.mem := by rw [writeResultAndFlag_eq]

@[simp] theorem writeResultAndFlag_i (s : State) (x : Reg) (r f : Byte) :
    (writeResultAndFlag s x r f).i = s.i := by rw [writeResultAndFlag_eq]

@[simp] theorem writeResultAndFlag_pc (s : State) (x : Reg) (r f : Byte) :
    (writeResultAndFlag s x r f).pc = s.pc := by rw [writeResultAndFlag_eq]

@[simp] theorem writeResultAndFlag_stack (s : State) (x : Reg) (r f : Byte) :
    (writeResultAndFlag s x r f).stack = s.stack := by rw [writeResultAndFlag_eq]

@[simp] theorem writeResultAndFlag_sp (s : State) (x : Reg) (r f : Byte) :
    (writeResultAndFlag s x r f).sp = s.sp := by rw [writeResultAndFlag_eq]

@[simp] theorem writeResultAndFlag_dt (s : State) (x : Reg) (r f : Byte) :
    (writeResultAndFlag s x r f).dt = s.dt := by rw [writeResultAndFlag_eq]

@[simp] theorem writeResultAndFlag_st (s : State) (x : Reg) (r f : Byte) :
    (writeResultAndFlag s x r f).st = s.st := by rw [writeResultAndFlag_eq]

@[simp] theorem writeResultAndFlag_fb (s : State) (x : Reg) (r f : Byte) :
    (writeResultAndFlag s x r f).fb = s.fb := by rw [writeResultAndFlag_eq]

@[simp] theorem writeResultAndFlag_dirty (s : State) (x : Reg) (r f : Byte) :
    (writeResultAndFlag s x r f).dirty = s.dirty := by rw [writeResultAndFlag_eq]

@[simp] theorem writeResultAndFlag_keys (s : State) (x : Reg) (r f : Byte) :
    (writeResultAndFlag s x r f).keys = s.keys := by rw [writeResultAndFlag_eq]

@[simp] theorem writeResultAndFlag_rand (s : State) (x : Reg) (r f : Byte) :
    (writeResultAndFlag s x r f).rand = s.rand := by rw [writeResultAndFlag_eq]

@[simp] theorem writeResultAndFlag_schedule (s : State) (x : Reg) (r f : Byte) :
    (writeResultAndFlag s x r f).schedule = s.schedule := by rw [writeResultAndFlag_eq]

@[simp] theorem writeResultAndFlag_turn (s : State) (x : Reg) (r f : Byte) :
    (writeResultAndFlag s x r f).turn = s.turn := by rw [writeResultAndFlag_eq]

@[simp] theorem writeResultAndFlag_loaded (s : State) (x : Reg) (r f : Byte) :
    (writeResultAndFlag s x r f).loaded = s.loaded := by rw [writeResultAndFlag_eq]

@[simp] theorem writeResultAndFlag_vfOrder (s : State) (x : Reg) (r f : Byte) :
    (writeResultAndFlag s x r f).vfOrder = s.vfOrder := by rw [writeResultAndFlag_eq]

/-- The registers that a load of the bytes `bs` leaves (R175). -/
theorem loadRegs_getElem (v : Regs) (bs : List Byte) (k : Reg) :
    (loadRegs v bs)[k.val] = bs.getD k.val v[k.val] := by
  simp [loadRegs]

/-- The byte of register k, if it is in the range V0 to Vx (R174). -/
theorem rangeBytes_getElem? (s : State) (x k : Reg) (h : k ≤ x) :
    (rangeBytes s x)[k.val]? = some (s.getV k) := by
  have hk : k.val < rangeCount x := Nat.lt_succ_of_le h
  simp [rangeBytes, hk, State.getV]

@[simp] theorem rangeBytes_length (s : State) (x : Reg) : (rangeBytes s x).length = x.val + 1 := by
  have := x.isLt
  simp only [rangeBytes, rangeCount, List.length_take, Vector.length_toList]
  omega

theorem rangeBytes_ne_nil (s : State) (x : Reg) : rangeBytes s x ≠ [] := by
  intro h
  simpa [h] using rangeBytes_length s x

/-- A zero-extended address keeps its value (R73). -/
@[simp] theorem wideAddr_toNat (nnn : Addr) : (wideAddr nnn).toNat = nnn.toNat := by
  simp only [wideAddr, BitVec.toNat_ofNat]
  omega

/-- A zero-extended byte keeps its value (R7). -/
@[simp] theorem wideByte_toNat (b : Byte) : (wideByte b).toNat = b.toNat := by
  simp only [wideByte, BitVec.toNat_ofNat]
  omega

/-- The target of BNNN does not wrap (R127). -/
theorem offsetTarget_toNat (s : State) (nnn : Addr) :
    (offsetTarget s nnn).toNat = nnn.toNat + (s.getV V0).toNat := by
  simp only [offsetTarget, BitVec.toNat_add, wideAddr_toNat, wideByte_toNat]
  omega

/-- A glyph's address does not wrap (R172). -/
theorem glyphAddr_toNat (v : Byte) : (glyphAddr v).toNat = 0x050 + v.toNat * 5 := by
  simp only [glyphAddr, BitVec.toNat_ofNat, Config.glyphBase, Config.glyphRows]
  omega

/-- What a push does (R28). -/
theorem push_cases (s : State) (w : Word) :
    (s.sp.val = 16 ∧ s.push w = .error (.stackOverflow s.pc)) ∨
    (∃ h : s.sp.val < 16, s.push w =
      .ok { s with stack := s.stack.set s.sp.val w, sp := ⟨s.sp.val + 1, Nat.succ_lt_succ h⟩ }) := by
  by_cases h : s.sp.val < 16
  · exact .inr ⟨h, by simp [State.push, h]⟩
  · have := s.sp.isLt
    exact .inl ⟨by omega, by simp [State.push, h]⟩

/-- What a pop does (R28). -/
theorem pop_cases (s : State) :
    (s.sp.val = 0 ∧ s.pop = .error (.stackUnderflow s.pc)) ∨
    (∃ (_ : s.sp.val ≠ 0) (h : s.sp.val - 1 < 16), s.pop =
      .ok (s.stack[s.sp.val - 1], { s with sp := ⟨s.sp.val - 1, Nat.lt_succ_of_lt h⟩ })) := by
  have := s.sp.isLt
  by_cases h : s.sp.val = 0
  · exact .inl ⟨h, by simp only [State.pop, h, dif_pos]⟩
  · exact .inr ⟨h, by omega, by simp only [State.pop, h, dif_neg, not_false_iff]⟩

/-- The lowest pressed key is pressed, and no lower one is (R192). -/
theorem lowestKey_some {keys : BitVec 16} {k : Fin 16} (h : lowestKey keys = some k) :
    keys.getLsbD k.val = true ∧ ∀ j : Fin 16, j < k → keys.getLsbD j.val = false := by
  obtain ⟨hk, as, bs, heq, hno⟩ := List.find?_eq_some_iff_append.mp h
  refine ⟨hk, fun j hj => ?_⟩
  have hmem : j ∈ as ++ k :: bs := heq ▸ List.mem_finRange j
  have hs : (as ++ k :: bs).Pairwise (· < ·) := heq ▸ List.pairwise_lt_finRange 16
  have hja : j ∈ as := by
    rcases List.mem_append.mp hmem with ha | hb
    · exact ha
    · have hkb := (List.pairwise_append.mp hs).2.1
      rcases List.mem_cons.mp hb with rfl | hb
      · exact absurd hj (lt_irrefl _)
      · exact absurd (hj.trans ((List.pairwise_cons.mp hkb).1 j hb)) (lt_irrefl _)
  simpa using hno j hja

/-- No key is the lowest pressed one only when none is pressed (R192). -/
theorem lowestKey_none {keys : BitVec 16} (h : lowestKey keys = none) (k : Fin 16) :
    keys.getLsbD k.val = false := by
  simpa using List.find?_eq_none.mp h k (List.mem_finRange k)

end Sys2Proof.Machine
end

