-- ==== Sys2Proof/Laws/Exec.lean ====
section
/-! SUPPORT. What each instruction that can raise an error answers, once: either the error or the next state
(60_exceptions.md R218); and what a step answers. The other instructions answer their next state by definition. -/

namespace Sys2Proof.Machine

/-- RET (R120). -/
theorem exec_ret_cases (s : State) :
    (s.sp.val = 0 ∧ exec .ret s = .fault (.stackUnderflow s.pc)) ∨
    (∃ (_ : s.sp.val ≠ 0) (h : s.sp.val - 1 < 16), exec .ret s =
      .next ({ s with sp := ⟨s.sp.val - 1, Nat.lt_succ_of_lt h⟩ }.setPc (s.stack[s.sp.val - 1] + 2))) := by
  rcases pop_cases s with ⟨h, hp⟩ | ⟨h, h', hp⟩
  · exact .inl ⟨h, by simp only [exec, execRet, hp]; rfl⟩
  · exact .inr ⟨h, h', by simp only [exec, execRet, hp]; rfl⟩

/-- CALL (R122). -/
theorem exec_call_cases (nnn : Addr) (s : State) :
    (s.sp.val = 16 ∧ exec (.call nnn) s = .fault (.stackOverflow s.pc)) ∨
    (∃ h : s.sp.val < 16, exec (.call nnn) s =
      .next ({ s with stack := s.stack.set s.sp.val s.pc,
                      sp := ⟨s.sp.val + 1, Nat.succ_lt_succ h⟩ }.setPc (wideAddr nnn))) := by
  rcases push_cases s s.pc with ⟨h, hp⟩ | ⟨h, hp⟩
  · exact .inl ⟨h, by simp only [exec, execCall, hp]; rfl⟩
  · exact .inr ⟨h, by simp only [exec, execCall, hp]; rfl⟩

/-- DRW (R101): the error of its reads, or the sprite drawn. -/
theorem exec_drw_cases (x y : Reg) (n : Fin 16) (s : State) :
    ((s.i.toNat + n.val ≤ 4096 ∨ n.val = 0) ∧ exec (.drw x y n) s =
      .next (drawSprite s x y ((List.range n.val).map fun k => s.mem.read (s.i.toNat + k)))) ∨
    (n.val ≠ 0 ∧ 4096 < s.i.toNat + n.val ∧
      exec (.drw x y n) s = .fault (.addressOutOfRange (max s.i.toNat 4096) s.pc)) := by
  rcases memReadMany_cases s (dataAddr s) n.val with ⟨h, hr⟩ | ⟨h, h', hr⟩
  · exact .inl ⟨h, by simp only [exec, execDrw, hr]; rfl⟩
  · exact .inr ⟨h, h', by simp only [exec, execDrw, hr]; rfl⟩

/-- LD B (R173): the error of its writes, or the digits stored. -/
theorem exec_ldB_cases (x : Reg) (s : State) :
    (s.i.toNat + 3 ≤ 4096 ∧ exec (.ldB x) s =
      .next (s.setMem (s.mem.writeAll s.i.toNat (bcdDigits (s.getV x)))).advance) ∨
    (4096 < s.i.toNat + 3 ∧
      exec (.ldB x) s = .fault (.addressOutOfRange (max s.i.toNat 4096) s.pc)) := by
  rcases memWriteMany_cases s.pc s.mem (dataAddr s) (bcdDigits (s.getV x))
    (by simp [bcdDigits]) with ⟨h, hr⟩ | ⟨h, hr⟩
  · exact .inl ⟨h, by simp only [exec, execLdB, hr]; rfl⟩
  · exact .inr ⟨h, by simp only [exec, execLdB, hr]; rfl⟩

/-- LD [I], Vx (R174): the error of its writes, or the registers stored. -/
theorem exec_dump_cases (x : Reg) (s : State) :
    (s.i.toNat + x.val < 4096 ∧ exec (.dump x) s =
      .next (s.setMem (s.mem.writeAll s.i.toNat (rangeBytes s x))).advance) ∨
    (4096 ≤ s.i.toNat + x.val ∧
      exec (.dump x) s = .fault (.addressOutOfRange (max s.i.toNat 4096) s.pc)) := by
  rcases memWriteMany_cases s.pc s.mem (dataAddr s) (rangeBytes s x)
    (rangeBytes_ne_nil s x) with ⟨h, hr⟩ | ⟨h, hr⟩ <;>
    simp only [rangeBytes_length, dataAddr, Config.memSize] at h
  · exact .inl ⟨by omega, by simp only [exec, execDump, hr]; rfl⟩
  · exact .inr ⟨by omega, by simp only [exec, execDump, hr]; rfl⟩

/-- LD Vx, [I] (R175): the error of its reads, or the registers loaded. -/
theorem exec_load_cases (x : Reg) (s : State) :
    (s.i.toNat + x.val < 4096 ∧ exec (.load x) s =
      .next (loadRange s x
        ((List.range (x.val + 1)).map fun k => s.mem.read (s.i.toNat + k)))) ∨
    (4096 ≤ s.i.toNat + x.val ∧
      exec (.load x) s = .fault (.addressOutOfRange (max s.i.toNat 4096) s.pc)) := by
  rcases memReadMany_cases s (dataAddr s) (rangeCount x) with ⟨h, hr⟩ | ⟨h', h, hr⟩ <;>
    simp only [rangeCount, dataAddr, Config.memSize] at h
  · exact .inl ⟨by omega, by simp only [exec, execLoad, hr]; rfl⟩
  · exact .inr ⟨by omega, by simp only [exec, execLoad, hr]; rfl⟩

/-- SKP (R190, R196). -/
theorem exec_skp_cases (x : Reg) (s : State) :
    ((s.getV x).toNat < 16 ∧
      exec (.skp x) s = .next (s.skipIf (s.keys.getLsbD (s.getV x).toNat))) ∨
    (16 ≤ (s.getV x).toNat ∧
      exec (.skp x) s = .fault (.keyIndexOutOfRange (s.getV x) s.pc)) := by
  by_cases h : (s.getV x).toNat < Config.numKeys
  · exact .inl ⟨h, by simp only [exec, execSkp, keyLevel, h, if_true]; rfl⟩
  · exact .inr ⟨Nat.le_of_not_lt h, by simp only [exec, execSkp, keyLevel, h, if_false]; rfl⟩

/-- SKNP (R191, R196). -/
theorem exec_sknp_cases (x : Reg) (s : State) :
    ((s.getV x).toNat < 16 ∧
      exec (.sknp x) s = .next (s.skipIf (!s.keys.getLsbD (s.getV x).toNat))) ∨
    (16 ≤ (s.getV x).toNat ∧
      exec (.sknp x) s = .fault (.keyIndexOutOfRange (s.getV x) s.pc)) := by
  by_cases h : (s.getV x).toNat < Config.numKeys
  · exact .inl ⟨h, by simp only [exec, execSknp, keyLevel, h, if_true]; rfl⟩
  · exact .inr ⟨Nat.le_of_not_lt h, by simp only [exec, execSknp, keyLevel, h, if_false]; rfl⟩

/-- LD Vx, K (R192). -/
theorem exec_ldVxK_cases (x : Reg) (s : State) :
    (∃ k : Fin 16, lowestKey s.keys = some k ∧
      exec (.ldVxK x) s = .next (s.setV x (BitVec.ofNat 8 k.val)).advance) ∨
    (lowestKey s.keys = none ∧ exec (.ldVxK x) s = .next s) := by
  cases h : lowestKey s.keys with
  | some k => exact .inl ⟨k, rfl, by simp only [exec, execLdVxK, h]⟩
  | none => exact .inr ⟨rfl, by simp only [exec, execLdVxK, h]⟩

/-- What an instruction that completes has done, one case per instruction (two for LD Vx, K): the next state,
and the condition under which it is reached. -/
inductive Effect (s : State) : Instr → State → Prop
  | cls : Effect s .cls (s.setDisplay Framebuffer.cleared).advance
  | ret (h : s.sp.val ≠ 0) (h' : s.sp.val - 1 < 16) :
      Effect s .ret
        ({ s with sp := ⟨s.sp.val - 1, Nat.lt_succ_of_lt h'⟩ }.setPc (s.stack[s.sp.val - 1] + 2))
  | jp (nnn : Addr) : Effect s (.jp nnn) (s.setPc (wideAddr nnn))
  | call (nnn : Addr) (h : s.sp.val < 16) :
      Effect s (.call nnn)
        ({ s with stack := s.stack.set s.sp.val s.pc,
                  sp := ⟨s.sp.val + 1, Nat.succ_lt_succ h⟩ }.setPc (wideAddr nnn))
  | seImm (x : Reg) (nn : Byte) : Effect s (.seImm x nn) (s.skipIf (s.getV x == nn))
  | sneImm (x : Reg) (nn : Byte) : Effect s (.sneImm x nn) (s.skipIf (s.getV x != nn))
  | seReg (x y : Reg) : Effect s (.seReg x y) (s.skipIf (s.getV x == s.getV y))
  | ldImm (x : Reg) (nn : Byte) : Effect s (.ldImm x nn) (s.setV x nn).advance
  | addImm (x : Reg) (nn : Byte) : Effect s (.addImm x nn) (s.setV x (s.getV x + nn)).advance
  | ldReg (x y : Reg) : Effect s (.ldReg x y) (s.setV x (s.getV y)).advance
  | orReg (x y : Reg) : Effect s (.orReg x y) (s.setV x (s.getV x ||| s.getV y)).advance
  | andReg (x y : Reg) : Effect s (.andReg x y) (s.setV x (s.getV x &&& s.getV y)).advance
  | xorReg (x y : Reg) : Effect s (.xorReg x y) (s.setV x (s.getV x ^^^ s.getV y)).advance
  | addReg (x y : Reg) : Effect s (.addReg x y)
      (writeResultAndFlag s x (s.getV x + s.getV y) (carryFlag (s.getV x) (s.getV y))).advance
  | subReg (x y : Reg) : Effect s (.subReg x y)
      (writeResultAndFlag s x (s.getV x - s.getV y) (subFlag (s.getV x) (s.getV y))).advance
  | shr (x y : Reg) : Effect s (.shr x y)
      (writeResultAndFlag s x (s.getV x >>> 1) (shrFlag (s.getV x))).advance
  | subnReg (x y : Reg) : Effect s (.subnReg x y)
      (writeResultAndFlag s x (s.getV y - s.getV x) (subnFlag (s.getV x) (s.getV y))).advance
  | shl (x y : Reg) : Effect s (.shl x y)
      (writeResultAndFlag s x (s.getV x <<< 1) (shlFlag (s.getV x))).advance
  | sneReg (x y : Reg) : Effect s (.sneReg x y) (s.skipIf (s.getV x != s.getV y))
  | ldI (nnn : Addr) : Effect s (.ldI nnn) (s.setI (wideAddr nnn)).advance
  | jpV0 (nnn : Addr) : Effect s (.jpV0 nnn) (s.setPc (offsetTarget s nnn))
  | rnd (x : Reg) (nn : Byte) : Effect s (.rnd x nn) (s.setV x (s.rand &&& nn)).advance
  | drw (x y : Reg) (n : Fin 16) (h : s.i.toNat + n.val ≤ 4096 ∨ n.val = 0) :
      Effect s (.drw x y n)
        (drawSprite s x y ((List.range n.val).map fun k => s.mem.read (s.i.toNat + k)))
  | skp (x : Reg) : Effect s (.skp x) (s.skipIf (s.keys.getLsbD (s.getV x).toNat))
  | sknp (x : Reg) : Effect s (.sknp x) (s.skipIf (!s.keys.getLsbD (s.getV x).toNat))
  | ldVxK (x : Reg) (k : Fin 16) (h : lowestKey s.keys = some k) :
      Effect s (.ldVxK x) (s.setV x (BitVec.ofNat 8 k.val)).advance
  | ldVxKNone (x : Reg) (h : lowestKey s.keys = none) : Effect s (.ldVxK x) s
  | ldVxDt (x : Reg) : Effect s (.ldVxDt x) (s.setV x s.dt).advance
  | ldDtVx (x : Reg) : Effect s (.ldDtVx x) (s.setDt (s.getV x)).advance
  | ldStVx (x : Reg) : Effect s (.ldStVx x) (s.setSt (s.getV x)).advance
  | addI (x : Reg) : Effect s (.addI x) (s.setI (s.i + wideByte (s.getV x))).advance
  | ldF (x : Reg) : Effect s (.ldF x) (s.setI (glyphAddr (s.getV x))).advance
  | ldB (x : Reg) (h : s.i.toNat + 3 ≤ 4096) :
      Effect s (.ldB x) (s.setMem (s.mem.writeAll s.i.toNat (bcdDigits (s.getV x)))).advance
  | dump (x : Reg) (h : s.i.toNat + x.val < 4096) :
      Effect s (.dump x) (s.setMem (s.mem.writeAll s.i.toNat (rangeBytes s x))).advance
  | load (x : Reg) (h : s.i.toNat + x.val < 4096) :
      Effect s (.load x)
        (loadRange s x ((List.range (x.val + 1)).map fun k => s.mem.read (s.i.toNat + k)))

/-- The inversion of `exec`: an instruction that completes has had its effect. -/
theorem exec_next {i : Instr} {s t : State} (h : exec i s = .next t) : Effect s i t := by
  cases i
  case ret =>
    rcases exec_ret_cases s with ⟨_, h2⟩ | ⟨h1, h3, h2⟩ <;> rw [h2] at h <;> cases h
    exact .ret h1 h3
  case call nnn =>
    rcases exec_call_cases nnn s with ⟨_, h2⟩ | ⟨h1, h2⟩ <;> rw [h2] at h <;> cases h
    exact .call nnn h1
  case drw x y n =>
    rcases exec_drw_cases x y n s with ⟨h1, h2⟩ | ⟨_, _, h2⟩ <;> rw [h2] at h <;> cases h
    exact .drw x y n h1
  case ldB x =>
    rcases exec_ldB_cases x s with ⟨h1, h2⟩ | ⟨_, h2⟩ <;> rw [h2] at h <;> cases h
    exact .ldB x h1
  case dump x =>
    rcases exec_dump_cases x s with ⟨h1, h2⟩ | ⟨_, h2⟩ <;> rw [h2] at h <;> cases h
    exact .dump x h1
  case load x =>
    rcases exec_load_cases x s with ⟨h1, h2⟩ | ⟨_, h2⟩ <;> rw [h2] at h <;> cases h
    exact .load x h1
  case skp x =>
    rcases exec_skp_cases x s with ⟨_, h2⟩ | ⟨_, h2⟩ <;> rw [h2] at h <;> cases h
    exact .skp x
  case sknp x =>
    rcases exec_sknp_cases x s with ⟨_, h2⟩ | ⟨_, h2⟩ <;> rw [h2] at h <;> cases h
    exact .sknp x
  case ldVxK x =>
    rcases exec_ldVxK_cases x s with ⟨k, h1, h2⟩ | ⟨h1, h2⟩ <;> rw [h2] at h <;> cases h
    · exact .ldVxK x k h1
    · exact .ldVxKNone x h1
  all_goals (cases h; constructor)

/-- What a step of the core that completes has done: a loaded program, a word fetched from inside the
address space, and the execution of the instruction it decodes to. -/
theorem coreStep_next {s t : State} (h : coreStep s = .next t) :
    s.loaded = true ∧ s.pc.toNat + 1 < 4096 ∧
      ∃ i, decodeWord (bytePair (s.mem.read s.pc.toNat) (s.mem.read (s.pc.toNat + 1))) = some i ∧
        exec i s = .next t := by
  unfold coreStep at h
  split at h
  · next hl =>
    rcases fetch_cases s with ⟨hp, hf⟩ | ⟨hp, hf⟩ | ⟨hp, hf⟩
    · rw [hf] at h
      simp only at h
      split at h
      · cases h
      · next i hi => exact ⟨hl, hp, i, hi, h⟩
    · rw [hf] at h; cases h
    · rw [hf] at h; cases h
  · cases h

/-- What a step of the model that completes has done: a step of the core, then the host's turn. -/
theorem step_next {s t : State} (h : step s = .next t) :
    ∃ u, coreStep s = .next u ∧ t = hostTurn u := by
  unfold step at h
  split at h
  · next u hu => exact ⟨u, hu, by simpa using h.symm⟩
  · cases h
  · cases h

/-- An error of an instruction does not depend on the inputs, the timers or the dirty flag (R219). -/
theorem exec_fault_congr {i : Instr} {s : State} {f : Fault} (h : exec i s = .fault f)
    (dt st : Byte) (dirty : Bool) (keys : BitVec 16) (rand : Byte) :
    exec i { s with dt := dt, st := st, dirty := dirty, keys := keys, rand := rand } = .fault f := by
  generalize ht : ({ s with dt := dt, st := st, dirty := dirty, keys := keys, rand := rand } : State) = t
  have hpc : t.pc = s.pc := by rw [← ht]
  have hi : t.i = s.i := by rw [← ht]
  have hsp : t.sp = s.sp := by rw [← ht]
  have hv (x : Reg) : t.getV x = s.getV x := by rw [← ht]; rfl
  clear ht
  revert h
  cases i
  case ret =>
    rcases exec_ret_cases s with ⟨_, h2⟩ | ⟨_, _, h2⟩ <;>
      rcases exec_ret_cases t with ⟨_, h4⟩ | ⟨_, _, h4⟩ <;> rw [h2, h4] <;> simp_all
  case call n =>
    rcases exec_call_cases n s with ⟨h1, h2⟩ | ⟨h1, h2⟩ <;>
      rcases exec_call_cases n t with ⟨h3, h4⟩ | ⟨h3, h4⟩ <;> rw [h2, h4] <;> rw [hsp] at h3
    · rw [hpc]; exact id
    · omega
    · omega
    · exact nofun
  case drw x y n =>
    rcases exec_drw_cases x y n s with ⟨_, h2⟩ | ⟨_, _, h2⟩ <;>
      rcases exec_drw_cases x y n t with ⟨_, h4⟩ | ⟨_, _, h4⟩ <;> rw [h2, h4] <;> simp_all
    omega
  case ldB x =>
    rcases exec_ldB_cases x s with ⟨_, h2⟩ | ⟨_, h2⟩ <;>
      rcases exec_ldB_cases x t with ⟨_, h4⟩ | ⟨_, h4⟩ <;> rw [h2, h4] <;> simp_all
    omega
  case dump x =>
    rcases exec_dump_cases x s with ⟨_, h2⟩ | ⟨_, h2⟩ <;>
      rcases exec_dump_cases x t with ⟨_, h4⟩ | ⟨_, h4⟩ <;> rw [h2, h4] <;> simp_all
    omega
  case load x =>
    rcases exec_load_cases x s with ⟨_, h2⟩ | ⟨_, h2⟩ <;>
      rcases exec_load_cases x t with ⟨_, h4⟩ | ⟨_, h4⟩ <;> rw [h2, h4] <;> simp_all
    omega
  case skp x =>
    rcases exec_skp_cases x s with ⟨_, h2⟩ | ⟨_, h2⟩ <;>
      rcases exec_skp_cases x t with ⟨_, h4⟩ | ⟨_, h4⟩ <;> rw [h2, h4] <;> simp_all
    omega
  case sknp x =>
    rcases exec_sknp_cases x s with ⟨_, h2⟩ | ⟨_, h2⟩ <;>
      rcases exec_sknp_cases x t with ⟨_, h4⟩ | ⟨_, h4⟩ <;> rw [h2, h4] <;> simp_all
    omega
  all_goals (intro h; exact nomatch h)

/-- An error of a step does not depend on the inputs, the timers or the dirty flag (R219). -/
theorem coreStep_fault_congr {s : State} {f : Fault} (h : coreStep s = .fault f)
    (dt st : Byte) (dirty : Bool) (keys : BitVec 16) (rand : Byte) :
    coreStep { s with dt := dt, st := st, dirty := dirty, keys := keys, rand := rand } = .fault f := by
  have hf : fetch { s with dt := dt, st := st, dirty := dirty, keys := keys, rand := rand } =
      fetch s := rfl
  unfold coreStep at h ⊢
  rw [hf]
  split at h
  · next hl =>
    rw [if_pos hl]
    cases hfs : fetch s with
    | error e => rw [hfs] at h; exact h
    | ok w =>
      rw [hfs] at h
      simp only at h ⊢
      cases hd : decodeWord w with
      | none => rw [hd] at h; exact h
      | some i => rw [hd] at h; exact exec_fault_congr h dt st dirty keys rand
  · cases h
end Sys2Proof.Machine
end

