-- ==== Sys2Proof/Laws/HostOps.lean ====
section
/-! SUPPORT. The laws of the host's operations: a countdown is that many ticks (60_exceptions.md R223), and what a
load answers (70_reset_and_hazards.md R241, R242), which turn the host takes, and the runs of R225. -/

namespace Sys2Proof.Machine

/-- A tick of a timer as natural numbers (R223). -/
theorem tickDown_toNat (b : Byte) : (tickDown b).toNat = b.toNat - 1 := by
  have := b.isLt
  have h0 : (0 : Byte).toNat = 0 := rfl
  have h1 : (1 : Byte).toNat = 1 := rfl
  unfold tickDown
  split
  · rw [BitVec.toNat_sub, h1]
    omega
  · omega

/-- A countdown as natural numbers. -/
theorem countdown_toNat (n : Nat) (b : Byte) : (countdown n b).toNat = b.toNat - n := by
  have := b.isLt
  simp only [countdown, BitVec.toNat_ofNat]
  omega

@[simp] theorem countdown_zero (b : Byte) : countdown 0 b = b := by
  simp [countdown]

/-- One more tick before a countdown is a longer countdown. -/
theorem countdown_tickDown (n : Nat) (b : Byte) : countdown n (tickDown b) = countdown (n + 1) b := by
  apply BitVec.eq_of_toNat_eq
  rw [countdown_toNat, countdown_toNat, tickDown_toNat]
  omega

/-- What a load answers (R241, R242). -/
theorem loadProgram_cases (rom : List Byte) (s : State) :
    (s.loaded = true ∧ loadProgram rom s = .refused .secondLoad) ∨
    (s.loaded = false ∧ rom.length ≤ 3584 ∧ loadProgram rom s =
      .next { s with mem := s.mem.writeAll 0x200 rom, loaded := true }) ∨
    (s.loaded = false ∧ 3584 < rom.length ∧
      loadProgram rom s = .fault (.romTooLarge rom.length)) := by
  unfold loadProgram
  cases hl : s.loaded
  · by_cases h : rom.length ≤ 3584
    · have hr : romWellFormed rom = true := decide_eq_true h
      exact .inr (.inl ⟨rfl, h, by simp [hr]⟩)
    · have hr : romWellFormed rom = false := decide_eq_false h
      exact .inr (.inr ⟨rfl, by omega, by simp [hr, raise, finish]⟩)
  · exact .inl ⟨rfl, by simp⟩

/-- The turn at the head of the schedule is the host's next turn, and is used up (log 1). -/
theorem hostTurn_of_cons {s : State} {t : Config.HostTurn} {ts : List Config.HostTurn}
    (h : s.schedule = t :: ts) :
    hostTurn s = { applyTurn t s with schedule := ts, turn := s.turn + 1 } := by
  simp [hostTurn, nextTurn, h]

/-- Where the schedule has ended the host's turn is the free turn of the next number (log 1). -/
theorem hostTurn_of_nil {s : State} (h : s.schedule = []) :
    hostTurn s =
      { applyTurn (Config.freeTurn (s.turn + 1)) s with schedule := [], turn := s.turn + 1 } := by
  simp [hostTurn, nextTurn, h]

@[simp] theorem Run.startAt_state (s : State) : (Run.startAt s).state = s := rfl
@[simp] theorem Run.startAt_log (s : State) : (Run.startAt s).log = [] := rfl
@[simp] theorem Run.next_state (r : Run) (op : HostOp) :
    (r.next op).state = (perform op r.state).1 := rfl
@[simp] theorem Run.next_log (r : Run) (op : HostOp) :
    (r.next op).log = (op, (perform op r.state).2) :: r.log := rfl

/-- The state of a run is what the operations alone make of it. -/
@[simp] theorem Run.nextAll_state (ops : List HostOp) (r : Run) :
    (r.nextAll ops).state = performAll ops r.state := by
  induction ops generalizing r with
  | nil => rfl
  | cons op ops ih => exact ih (r.next op)

/-- Operations one after the other. -/
theorem Run.nextAll_append (ops more : List HostOp) (r : Run) :
    r.nextAll (ops ++ more) = (r.nextAll ops).nextAll more := by
  induction ops generalizing r with
  | nil => rfl
  | cons op ops ih => exact ih (r.next op)

/-- What has been returned stays in the log. -/
theorem Run.mem_log_nextAll {r : Run} {e : HostOp × HostReply} (ops : List HostOp) (h : e ∈ r.log) :
    e ∈ (r.nextAll ops).log := by
  induction ops generalizing r with
  | nil => exact h
  | cons op ops ih => exact ih (List.mem_cons_of_mem _ h)

end Sys2Proof.Machine
end

