-- ==== Sys2Proof/Laws/PerInstr.lean ====
section
/-! SUPPORT. The per-instruction family EncodedInRow: the encoder puts every instruction in its own row of the opcode
table, whatever its operands (30_encoding.md R75). -/

namespace Sys2Proof.Laws.EncodedInRow

open Sys2Proof

/-- The instruction's word has the fixed bits of the table row that bears its mnemonic. -/
def Statement (i : Instr) : Prop :=
  ∃ r ∈ opcodeRows, r.mnemonic = i.mnemonic ∧ encodeWord i &&& r.mask = r.fixed

/-- A row of the table, and the masked word of an instruction of its mnemonic. -/
theorem of_row {i : Instr} (r : OpcodeRow) (hr : r ∈ opcodeRows) (hm : r.mnemonic = i.mnemonic)
    (he : encodeWord i &&& r.mask = r.fixed) : Statement i := ⟨r, hr, hm, he⟩

theorem cls : Statement .cls :=
  of_row ⟨"CLS", 0x00E0, 0xFFFF⟩ (by decide) rfl (by decide)

theorem ret : Statement .ret :=
  of_row ⟨"RET", 0x00EE, 0xFFFF⟩ (by decide) rfl (by decide)

theorem jp (nnn : Addr) : Statement (.jp nnn) :=
  of_row ⟨"JP_nnn", 0x1000, 0xF000⟩ (by decide) rfl (formNNN_masked 0x1 nnn (by omega))

theorem call (nnn : Addr) : Statement (.call nnn) :=
  of_row ⟨"CALL_nnn", 0x2000, 0xF000⟩ (by decide) rfl (formNNN_masked 0x2 nnn (by omega))

theorem seImm (x : Reg) (nn : Byte) : Statement (.seImm x nn) :=
  of_row ⟨"SE_Vx__nn", 0x3000, 0xF000⟩ (by decide) rfl (formXNN_masked 0x3 x nn (by omega))

theorem sneImm (x : Reg) (nn : Byte) : Statement (.sneImm x nn) :=
  of_row ⟨"SNE_Vx__nn", 0x4000, 0xF000⟩ (by decide) rfl (formXNN_masked 0x4 x nn (by omega))

theorem seReg (x y : Reg) : Statement (.seReg x y) :=
  of_row ⟨"SE_Vx__Vy", 0x5000, 0xF00F⟩ (by decide) rfl (formXYN_masked_n 0x5 x y 0x0 (by omega))

theorem ldImm (x : Reg) (nn : Byte) : Statement (.ldImm x nn) :=
  of_row ⟨"LD_Vx__nn", 0x6000, 0xF000⟩ (by decide) rfl (formXNN_masked 0x6 x nn (by omega))

theorem addImm (x : Reg) (nn : Byte) : Statement (.addImm x nn) :=
  of_row ⟨"ADD_Vx__nn", 0x7000, 0xF000⟩ (by decide) rfl (formXNN_masked 0x7 x nn (by omega))

theorem ldReg (x y : Reg) : Statement (.ldReg x y) :=
  of_row ⟨"LD_Vx__Vy", 0x8000, 0xF00F⟩ (by decide) rfl (formXYN_masked_n 0x8 x y 0x0 (by omega))

theorem orReg (x y : Reg) : Statement (.orReg x y) :=
  of_row ⟨"OR_Vx__Vy", 0x8001, 0xF00F⟩ (by decide) rfl (formXYN_masked_n 0x8 x y 0x1 (by omega))

theorem andReg (x y : Reg) : Statement (.andReg x y) :=
  of_row ⟨"AND_Vx__Vy", 0x8002, 0xF00F⟩ (by decide) rfl (formXYN_masked_n 0x8 x y 0x2 (by omega))

theorem xorReg (x y : Reg) : Statement (.xorReg x y) :=
  of_row ⟨"XOR_Vx__Vy", 0x8003, 0xF00F⟩ (by decide) rfl (formXYN_masked_n 0x8 x y 0x3 (by omega))

theorem addReg (x y : Reg) : Statement (.addReg x y) :=
  of_row ⟨"ADD_Vx__Vy", 0x8004, 0xF00F⟩ (by decide) rfl (formXYN_masked_n 0x8 x y 0x4 (by omega))

theorem subReg (x y : Reg) : Statement (.subReg x y) :=
  of_row ⟨"SUB_Vx__Vy", 0x8005, 0xF00F⟩ (by decide) rfl (formXYN_masked_n 0x8 x y 0x5 (by omega))

theorem shr (x y : Reg) : Statement (.shr x y) :=
  of_row ⟨"SHR_Vx__Vy", 0x8006, 0xF00F⟩ (by decide) rfl (formXYN_masked_n 0x8 x y 0x6 (by omega))

theorem subnReg (x y : Reg) : Statement (.subnReg x y) :=
  of_row ⟨"SUBN_Vx__Vy", 0x8007, 0xF00F⟩ (by decide) rfl (formXYN_masked_n 0x8 x y 0x7 (by omega))

theorem shl (x y : Reg) : Statement (.shl x y) :=
  of_row ⟨"SHL_Vx__Vy", 0x800E, 0xF00F⟩ (by decide) rfl (formXYN_masked_n 0x8 x y 0xE (by omega))

theorem sneReg (x y : Reg) : Statement (.sneReg x y) :=
  of_row ⟨"SNE_Vx__Vy", 0x9000, 0xF00F⟩ (by decide) rfl (formXYN_masked_n 0x9 x y 0x0 (by omega))

theorem ldI (nnn : Addr) : Statement (.ldI nnn) :=
  of_row ⟨"LD_I__nnn", 0xA000, 0xF000⟩ (by decide) rfl (formNNN_masked 0xA nnn (by omega))

theorem jpV0 (nnn : Addr) : Statement (.jpV0 nnn) :=
  of_row ⟨"JP_V0__nnn", 0xB000, 0xF000⟩ (by decide) rfl (formNNN_masked 0xB nnn (by omega))

theorem rnd (x : Reg) (nn : Byte) : Statement (.rnd x nn) :=
  of_row ⟨"RND_Vx__nn", 0xC000, 0xF000⟩ (by decide) rfl (formXNN_masked 0xC x nn (by omega))

theorem drw (x y : Reg) (n : Fin 16) : Statement (.drw x y n) :=
  of_row ⟨"DRW_Vx__Vy__n", 0xD000, 0xF000⟩ (by decide) rfl (formXYN_masked 0xD x y n (by omega))

theorem skp (x : Reg) : Statement (.skp x) :=
  of_row ⟨"SKP_Vx", 0xE09E, 0xF0FF⟩ (by decide) rfl (formXNN_masked_nn 0xE x 0x9E (by omega))

theorem sknp (x : Reg) : Statement (.sknp x) :=
  of_row ⟨"SKNP_Vx", 0xE0A1, 0xF0FF⟩ (by decide) rfl (formXNN_masked_nn 0xE x 0xA1 (by omega))

theorem ldVxK (x : Reg) : Statement (.ldVxK x) :=
  of_row ⟨"LD_Vx__K", 0xF00A, 0xF0FF⟩ (by decide) rfl (formXNN_masked_nn 0xF x 0x0A (by omega))

theorem ldVxDt (x : Reg) : Statement (.ldVxDt x) :=
  of_row ⟨"LD_Vx__DT", 0xF007, 0xF0FF⟩ (by decide) rfl (formXNN_masked_nn 0xF x 0x07 (by omega))

theorem ldDtVx (x : Reg) : Statement (.ldDtVx x) :=
  of_row ⟨"LD_DT__Vx", 0xF015, 0xF0FF⟩ (by decide) rfl (formXNN_masked_nn 0xF x 0x15 (by omega))

theorem ldStVx (x : Reg) : Statement (.ldStVx x) :=
  of_row ⟨"LD_ST__Vx", 0xF018, 0xF0FF⟩ (by decide) rfl (formXNN_masked_nn 0xF x 0x18 (by omega))

theorem addI (x : Reg) : Statement (.addI x) :=
  of_row ⟨"ADD_I__Vx", 0xF01E, 0xF0FF⟩ (by decide) rfl (formXNN_masked_nn 0xF x 0x1E (by omega))

theorem ldF (x : Reg) : Statement (.ldF x) :=
  of_row ⟨"LD_F__Vx", 0xF029, 0xF0FF⟩ (by decide) rfl (formXNN_masked_nn 0xF x 0x29 (by omega))

theorem ldB (x : Reg) : Statement (.ldB x) :=
  of_row ⟨"LD_B__Vx", 0xF033, 0xF0FF⟩ (by decide) rfl (formXNN_masked_nn 0xF x 0x33 (by omega))

theorem dump (x : Reg) : Statement (.dump x) :=
  of_row ⟨"LD__I___Vx", 0xF055, 0xF0FF⟩ (by decide) rfl (formXNN_masked_nn 0xF x 0x55 (by omega))

theorem load (x : Reg) : Statement (.load x) :=
  of_row ⟨"LD_Vx___I", 0xF065, 0xF0FF⟩ (by decide) rfl (formXNN_masked_nn 0xF x 0x65 (by omega))

end Sys2Proof.Laws.EncodedInRow
end

