-- ==== Sys2Proof/Tests/Slice0.lean ====
section
/-! SUPPORT. Tests of the model on fixed values: the smoke tests of WellFormed, a written-out word for every
constructor, the vectors of 95_test_vectors.md (each test names its vector, or the rule whose example it is), and for
every statement with hypotheses a concrete state that meets them, at the boundary values of its clauses. -/

namespace Sys2Proof.Tests

open Sys2Proof Sys2Proof.Machine

/-! ### Helpers -/

/-- The launch state of R242 with an empty ROM, no key pressed and the random byte 0. -/
def launched : State := { State.reset with loaded := true, keys := 0, rand := 0 }

/-- A state with registers set. -/
def withRegs (s : State) (rs : List (Reg × Byte)) : State := rs.foldl (fun t r => t.setV r.1 r.2) s

/-- A state with bytes stored from an address on. -/
def withBytes (s : State) (a : Nat) (bs : List Byte) : State := s.setMem (s.mem.writeAll a bs)

/-- One step of the core with the word at `pc`. -/
def stepOn (s : State) (w : Word) : Host.Outcome State Fault Refusal := coreStep (placeWord s w)

/-- The outcome is a next state with the property. -/
def goesOn (o : Host.Outcome State Fault Refusal) (p : State → Bool) : Bool :=
  match o with
  | .next t => p t
  | _ => false

/-- The outcome is the fault. -/
def faultsAs (o : Host.Outcome State Fault Refusal) (f : Fault) : Bool :=
  match o with
  | .fault g => g == f
  | _ => false

/-- The bytes from an address on. -/
def bytesAt (s : State) (a n : Nat) : List Byte := (List.range n).map fun k => s.mem.read (a + k)

/-! ### WellFormed: an operand out of its range is refused -/

theorem test_register_16_is_ill_formed : regFits 16 = false ∧ regFits 15 = true := by decide
theorem test_height_16_is_ill_formed : heightFits 16 = false ∧ heightFits 15 = true := by decide
theorem test_byte_256_is_ill_formed : byteFits 256 = false ∧ byteFits 255 = true := by decide
theorem test_address_4096_is_ill_formed : addrFits 4096 = false ∧ addrFits 4095 = true := by decide
theorem test_rom_of_3585_bytes_is_ill_formed :
    romWellFormed (List.replicate 3585 0) = false ∧ romWellFormed (List.replicate 3584 0) = true := by
  unfold romWellFormed
  rw [List.length_replicate, List.length_replicate]
  decide

/-! ### Decoding: words written out nibble by nibble from the patterns of R75 -/

theorem test_decode_display :
    decodeWord 0b0000_0000_1110_0000 = some .cls ∧
    decodeWord 0b1101_1010_1011_0101 = some (.drw 10 11 5) := by decide

theorem test_decode_control :
    decodeWord 0b0000_0000_1110_1110 = some .ret ∧
    decodeWord 0b0001_1010_1011_1100 = some (.jp 0xABC) ∧
    decodeWord 0b0010_1010_1011_1100 = some (.call 0xABC) ∧
    decodeWord 0b0011_0110_1010_0101 = some (.seImm 6 0xA5) ∧
    decodeWord 0b0100_0110_1010_0101 = some (.sneImm 6 0xA5) ∧
    decodeWord 0b0101_0110_1101_0000 = some (.seReg 6 13) ∧
    decodeWord 0b1001_0110_1101_0000 = some (.sneReg 6 13) ∧
    decodeWord 0b1011_0001_0010_0011 = some (.jpV0 0x123) := by decide

theorem test_decode_immediates :
    decodeWord 0b0110_1010_0100_0010 = some (.ldImm 10 0x42) ∧
    decodeWord 0b0111_0000_1111_1111 = some (.addImm 0 0xFF) ∧
    decodeWord 0b1100_0011_0000_1111 = some (.rnd 3 0x0F) := by decide

theorem test_decode_alu :
    decodeWord 0b1000_0110_1101_0000 = some (.ldReg 6 13) ∧
    decodeWord 0b1000_0110_1101_0001 = some (.orReg 6 13) ∧
    decodeWord 0b1000_0110_1101_0010 = some (.andReg 6 13) ∧
    decodeWord 0b1000_0110_1101_0011 = some (.xorReg 6 13) ∧
    decodeWord 0b1000_0110_1101_0100 = some (.addReg 6 13) ∧
    decodeWord 0b1000_0110_1101_0101 = some (.subReg 6 13) ∧
    decodeWord 0b1000_0110_1101_0110 = some (.shr 6 13) ∧
    decodeWord 0b1000_0110_1101_0111 = some (.subnReg 6 13) ∧
    decodeWord 0b1000_0110_1101_1110 = some (.shl 6 13) := by decide

theorem test_decode_index :
    decodeWord 0b1010_0011_0000_0000 = some (.ldI 0x300) ∧
    decodeWord 0b1111_0110_0001_1110 = some (.addI 6) ∧
    decodeWord 0b1111_0110_0010_1001 = some (.ldF 6) ∧
    decodeWord 0b1111_0110_0011_0011 = some (.ldB 6) ∧
    decodeWord 0b1111_0110_0101_0101 = some (.dump 6) ∧
    decodeWord 0b1111_0110_0110_0101 = some (.load 6) := by decide

theorem test_decode_keypad_timer :
    decodeWord 0b1110_0101_1001_1110 = some (.skp 5) ∧
    decodeWord 0b1110_0101_1010_0001 = some (.sknp 5) ∧
    decodeWord 0b1111_0110_0000_1010 = some (.ldVxK 6) ∧
    decodeWord 0b1111_0110_0000_0111 = some (.ldVxDt 6) ∧
    decodeWord 0b1111_0110_0001_0101 = some (.ldDtVx 6) ∧
    decodeWord 0b1111_0110_0001_1000 = some (.ldStVx 6) := by decide

/-- R77 and R78: one word of each class of R76 is rejected, by name; E3, E8, E9, C12, C13, E4. -/
theorem test_decode_rejects :
    decode [0x01, 0x23] = .error (.unsupported 0x0123) ∧
    decode [0x00, 0x00] = .error (.unsupported 0x0000) ∧
    decode [0x51, 0x21] = .error (.unsupported 0x5121) ∧
    decode [0x80, 0x08] = .error (.unsupported 0x8008) ∧
    decode [0x91, 0x21] = .error (.unsupported 0x9121) ∧
    decode [0xE1, 0x9F] = .error (.unsupported 0xE19F) ∧
    decode [0xF1, 0x66] = .error (.unsupported 0xF166) ∧
    decode [0x12] = .error .tooShort ∧ decode [] = .error .tooShort := by
  refine ⟨rfl, rfl, rfl, rfl, rfl, rfl, rfl, rfl, rfl⟩

/-- R55: the first byte is the high byte. -/
theorem test_decode_is_big_endian : decode [0x12, 0x08, 0xFF] = .ok (.jp 0x208, [0xFF]) := by rfl

/-! ### Witnesses: states and operands that meet the hypotheses of the statements -/

theorem witness_word_decodes : decodeWord 0x8156 = some (.shr 1 5) := by decide

theorem witness_row_selects : ∃ r ∈ opcodeRows, r.selects 0x00EE = true := by decide

/-- UnsupportedWordClasses: a word of each class. -/
theorem witness_unsupported_classes :
    (opField 0x0123 = 0x0 ∧ (0x0123 : Word) ≠ 0x00E0 ∧ (0x0123 : Word) ≠ 0x00EE) ∧
    (opField 0x5121 = 0x5 ∧ nField 0x5121 ≠ 0) ∧
    (opField 0x8008 = 0x8 ∧ nField 0x8008 ∈ ([0x8, 0x9, 0xA, 0xB, 0xC, 0xD, 0xF] : List (Fin 16))) ∧
    (opField 0x9121 = 0x9 ∧ nField 0x9121 ≠ 0) ∧
    (opField 0xE19F = 0xE ∧ nnField 0xE19F ∉ ([0x9E, 0xA1] : List Byte)) ∧
    (opField 0xF166 = 0xF ∧
      nnField 0xF166 ∉ ([0x07, 0x0A, 0x15, 0x18, 0x1E, 0x29, 0x33, 0x55, 0x65] : List Byte)) := by decide

/-- A loaded core with CLS as its next instruction, at the last address an instruction can stand. -/
def atLastWord : State := placeWord { launched with pc := 0xFFE } 0x00E0

theorem witness_step_of_a_decoded_instruction :
    atLastWord.loaded = true ∧ atLastWord.pc.toNat + 1 < 4096 ∧
    decode [atLastWord.mem.read atLastWord.pc.toNat, atLastWord.mem.read (atLastWord.pc.toNat + 1)] =
      .ok (.cls, []) ∧ ∃ t, exec .cls atLastWord = .next t := by
  refine ⟨rfl, by decide, rfl, _, rfl⟩

/-- The clauses about the host's `step(key, rand)`, with inputs of its own. -/
theorem witness_host_step_completes :
    ∃ t, exec .cls { atLastWord with keys := 0x8000, rand := 0xA7 } = .next t := ⟨_, rfl⟩

/-- The same with RET and an empty stack: the clauses about an error. -/
theorem witness_step_of_a_failing_instruction :
    let s := placeWord launched 0x00EE
    s.loaded = true ∧ s.pc.toNat + 1 < 4096 ∧
    decode [s.mem.read s.pc.toNat, s.mem.read (s.pc.toNat + 1)] = .ok (.ret, []) ∧
      (∃ f, exec .ret s = .fault f) ∧
      ∃ f, exec .ret { s with keys := 0x8000, rand := 0xA7 } = .fault f := by
  refine ⟨rfl, by decide, rfl, ⟨_, rfl⟩, _, rfl⟩

theorem witness_fetch_clauses :
    (({ launched with pc := 0xFFE } : State).pc.toNat + 1 < 4096) ∧
    (({ launched with pc := 0x1000 } : State).loaded = true ∧
      ({ launched with pc := 0x1000 } : State).pc.toNat ≥ 4096) ∧
    (({ launched with pc := 0xFFF } : State).loaded = true ∧
      ({ launched with pc := 0xFFF } : State).pc.toNat = 4095) ∧
    (∃ t, loadProgram [0x60, 0x12] State.reset = .next t) ∧ ([0x60, 0x12] : List Byte)[1]? = some 0x12 := by
  refine ⟨by decide, by decide, by decide, ⟨_, rfl⟩, rfl⟩

theorem witness_unsupported_word :
    launched.loaded = true ∧ fetch launched = .ok 0x0000 ∧ rowOf 0x0000 = none := by
  refine ⟨rfl, rfl, by decide⟩

theorem witness_host_moves : State.reset.loaded = false ∧ launched.loaded = true := by decide

/-- EachInstructionRaisesOneKindOfError: each kind of error is met. -/
theorem witness_errors :
    (∃ f, exec .ret launched = .fault f) ∧ (∃ f, exec (.call 0x400) { launched with sp := 16 } = .fault f) ∧
    (∃ f, exec (.skp 1) (launched.setV 1 16) = .fault f) ∧
    (∃ f, exec (.load 0) { launched with i := 0x1000 } = .fault f) := by
  refine ⟨⟨_, rfl⟩, ⟨_, rfl⟩, ⟨_, rfl⟩, ⟨_, rfl⟩⟩

/-- LoadWritesTheRomAndNothingElse: the longest ROM that fits and the shortest that does not. -/
theorem witness_load_clauses : State.reset.loaded = false ∧
    (List.replicate 3584 (0 : Byte)).length ≤ 3584 ∧ 3584 < (List.replicate 3585 (0 : Byte)).length := by
  rw [List.length_replicate, List.length_replicate]
  decide

/-- A state whose next sprite byte, at the last address, has one set bit, over a cell that is set. -/
def spriteState : State :=
  { withBytes launched 0xFFF [0x80] with i := 0xFFF, fb := launched.fb.setCell 0 0 true }

theorem witness_sprite_in_range : spriteState.i.toNat + (1 : Fin 16).val ≤ 4096 ∧ (0 : Fin 16).val = 0 := by
  decide

theorem witness_sprite_out_of_range :
    (2 : Fin 16).val ≠ 0 ∧ 4096 < spriteState.i.toNat + (2 : Fin 16).val := by decide

theorem witness_sprite_covers :
    SpriteCovers spriteState 0 0 1 0 0 ∧ ¬ SpriteCovers spriteState 0 0 1 0 1 ∧
    SpriteCollides spriteState 0 0 1 ∧ ¬ SpriteCollides spriteState 0 0 0 := by
  have h : SpriteCovers spriteState 0 0 1 0 0 := by unfold SpriteCovers; decide
  refine ⟨h, by unfold SpriteCovers; decide, ⟨0, 0, h, by decide⟩, ?_⟩
  rintro ⟨r, c, ⟨row, hrow, _⟩, _⟩
  exact absurd hrow (Nat.not_lt_zero row)

/-- A state of a run: one live stack entry, the last address a CALL can stand at. -/
def inCall : State := { launched with sp := 1, stack := launched.stack.set 0 0xFFE, pc := 0x10FE }

theorem witness_return_clauses :
    launched.sp.val = 0 ∧ inCall.sp.val ≠ 0 ∧ ({ launched with sp := 16 } : State).sp.val ≠ 0 := by decide

theorem witness_invariant : Inv inCall := by
  refine ⟨by decide, by decide, by decide⟩

theorem witness_jump_clauses :
    (0xFFE : Addr).toNat ≠ 0xFFF ∧ (0xFFF : Addr).toNat = 0xFFF ∧
    (0xFFE : Addr).toNat + (launched.getV 0).toNat < 0xFFF ∧
    0xFFF ≤ (0xFFF : Addr).toNat + (launched.getV 0).toNat := by decide

theorem witness_call_clauses :
    ({ launched with sp := 16 } : State).sp.val = 16 ∧ ({ launched with sp := 15 } : State).sp.val ≠ 16 := by
  decide

theorem witness_skip_clauses :
    launched.getV 1 = 0 ∧ launched.getV 1 ≠ 1 ∧ launched.getV 1 = launched.getV 2 ∧
    launched.getV 1 ≠ (launched.setV 2 1).getV 2 := by decide

theorem witness_call_completes : ∃ t, exec (.call 0x400) { launched with sp := 15 } = .next t := ⟨_, rfl⟩

/-- The hypothesis of the statements about every instruction that completes. -/
theorem witness_exec_completes :
    (∃ t, exec .cls launched = .next t) ∧ (∃ t, exec (.addReg 15 1) launched = .next t) ∧
    (∃ t, exec (.ldVxK 1) launched = .next t) ∧ (∃ t, exec (.dump 1) launched = .next t) := by
  refine ⟨⟨_, rfl⟩, ⟨_, rfl⟩, ⟨_, rfl⟩, ⟨_, rfl⟩⟩

/-- PcUpdatesOfEveryInstruction: each of its clauses is met by an instruction that completes. -/
theorem witness_pc_clauses :
    (SkipTaken (.seImm 0 0) launched ∧ ∃ t, exec (.seImm 0 0) launched = .next t) ∧
    (launched.keys = 0 ∧ ∃ t, exec (.ldVxK 0) launched = .next t) ∧
    (∃ t, exec (.jp 0x400) launched = .next t) ∧ (∃ t, exec (.jpV0 0x400) launched = .next t) ∧
    (∃ t, exec .ret inCall = .next t) ∧
    (¬ SkipTaken .cls launched ∧ ∃ t, exec .cls launched = .next t) := by
  refine ⟨⟨.inl ⟨0, 0, .inl ⟨rfl, rfl⟩⟩, _, rfl⟩, ⟨rfl, _, rfl⟩, ⟨_, rfl⟩, ⟨_, rfl⟩, ⟨_, rfl⟩, ?_, _, rfl⟩
  rintro (⟨_, _, ⟨h, _⟩ | ⟨h, _⟩⟩ | ⟨_, _, ⟨h, _⟩ | ⟨h, _⟩⟩ | ⟨_, ⟨h, _⟩ | ⟨h, _⟩⟩) <;> cases h

theorem witness_self_jump : launched.loaded = true ∧ AtSelfJump (placeWord launched 0x1200) ∧
    AtSelfJump (placeWord { launched with pc := 0xFFE } 0x1FFE) := by
  refine ⟨rfl, ⟨by decide, by decide⟩, ⟨by decide, by decide⟩⟩

/-- A run from construction whose ROM is the self-jump of R244, after the load and one step. -/
def haltedRun : Run := (Run.startAt State.reset).nextAll [.loadProgram [0x12, 0x00], .step 0 0]

theorem witness_halted_run : haltedRun.state.loaded = true ∧ Halted haltedRun := by
  refine ⟨rfl, fun op f h => ?_, by decide, by decide⟩
  simp [show haltedRun.log = [(.step 0 0, .ok), (.loadProgram [0x12, 0x00], .ok)] from rfl] at h

/-- E8 as a run from construction: the step has returned its error. -/
theorem witness_faulted_run : (HostOp.step 0 0, HostReply.err (.unsupportedOpcode 0x0123 0x200)) ∈
    ((Run.startAt State.reset).nextAll [.loadProgram [0x01, 0x23], .step 0 0]).log := List.mem_cons_self ..

/-- WritesRegAndFlag: a destination other than VF, and VF under both values of VF_WRITE_ORDER. -/
theorem witness_flag_order : (14 : Reg) ≠ VF ∧ (15 : Reg) = VF ∧ launched.vfOrder = .flagLast ∧
    ({ launched with vfOrder := .resultLast } : State).vfOrder = .resultLast := by decide

theorem witness_bcd_clauses : dataAddr { launched with i := 0xFFD } + 3 ≤ 4096 ∧
    4096 < dataAddr { launched with i := 0xFFE } + 3 := by decide

theorem witness_range_clauses : dataAddr { launched with i := 0xFF0 } + (15 : Reg).val < 4096 ∧
    4096 ≤ dataAddr { launched with i := 0xFF1 } + (15 : Reg).val := by decide

/-- A dump of all 16 registers to the last 16 bytes of memory, then a state with that memory and that I. -/
theorem witness_dump_then_load : ∃ t u : State,
    exec (.dump 15) { launched with i := 0xFF0 } = .next t ∧ u.mem = t.mem ∧
      u.i = ({ launched with i := 0xFF0 } : State).i := by
  rcases exec_dump_cases 15 { launched with i := 0xFF0 } with ⟨_, h⟩ | ⟨h, _⟩
  · exact ⟨_, _, h, rfl, rfl⟩
  · exact absurd h (by decide)

theorem witness_stored_instruction : (0 : Reg).val + 1 < 16 ∧ (0 : Reg).val + 1 ≤ (1 : Reg).val ∧
    ∃ t, exec (.dump 1) { launched with i := 0x208 } = .next t := by
  refine ⟨by decide, by decide, _, rfl⟩

theorem witness_key_index_clauses :
    ((launched.setV 1 15).getV 1).toNat < 16 ∧ 16 ≤ ((launched.setV 1 16).getV 1).toNat := by decide

theorem witness_key_clauses :
    (({ launched with keys := 0x8000 } : State).keys.getLsbD (15 : Fin 16).val = true ∧
      ∀ j : Fin 16, j < 15 → ({ launched with keys := 0x8000 } : State).keys.getLsbD j.val = false) ∧
    ∀ k : Fin 16, launched.keys.getLsbD k.val = false := by decide

/-- HostTurnIsTicksAndClear: a schedule with a turn, and one that has ended. -/
theorem witness_schedules : ({ launched with schedule := [⟨1, true, 0, 0⟩] } : State).schedule =
    ⟨1, true, 0, 0⟩ :: [] ∧ launched.schedule = [] := by decide

theorem witness_interleaving : ∀ op ∈ ([.tickTimers, .clearDirty, .readTone] : List HostOp),
    op = .tickTimers ∨ op = .clearDirty ∨ op = .isDirty ∨ op = .readTone ∨ op = .readFramebuffer := by decide

theorem witness_operation_errs :
    (∃ f, perform (.step 0 0) launched = (launched, .err f)) ∧
    (∃ r, perform (.step 0 0) { launched with loaded := false } =
      ({ launched with loaded := false }, .refused r)) := ⟨⟨_, rfl⟩, ⟨_, rfl⟩⟩

theorem witness_faults : FaultsWith launched (.unsupportedOpcode 0x0000 0x200) := ⟨0, 0, rfl⟩

theorem witness_step_from_the_invariant :
    Inv (placeWord launched 0x00E0) ∧ ∃ t, step (placeWord launched 0x00E0) = .next t := by
  refine ⟨⟨by decide, by decide, by decide⟩, _, rfl⟩

theorem witness_canonical_memories : ∃ m n : Memory, m.wf ∧ n.wf ∧ (∀ a, a < 4096 → m.read a = n.read a) ∧
    m ≠ [] := by
  refine ⟨[(0x300, 5)], [(0x300, 5)], by decide, by decide, fun _ _ => rfl, by decide⟩

/-! ### Display -/

/-- D1. -/
theorem test_cls : goesOn (stepOn { launched with fb := launched.fb.setCell 5 5 true } 0x00E0) (fun t =>
    t.fb.cell 5 5 == false && t.dirty && t.pc == 0x202) = true := by decide

/-- D6: the x coordinate is VF's value before the step. -/
theorem test_drw_reads_vf_first : goesOn (stepOn { withBytes (withRegs launched [(15, 10)]) 0x300 [0x80] with
    i := 0x300, fb := launched.fb.setCell 0 10 true } 0xDF11) (fun t =>
      t.fb.cell 0 10 == false && t.getV VF == 1) = true := by decide

/-- S3: the 8 columns wrap from column 63 to column 0. -/
theorem test_drw_wraps : goesOn (stepOn { withBytes (withRegs launched [(1, 63)]) 0x300 [0xFF] with
    i := 0x300 } 0xD121) (fun t =>
      t.fb.cell 0 63 && t.fb.cell 0 0 && t.fb.cell 0 6 && !t.fb.cell 0 7 && !t.fb.cell 0 62 &&
        t.getV VF == 0) = true := by decide

/-! ### Control transfer -/

/-- C2. -/
theorem test_ret : goesOn (stepOn { launched with sp := 1, stack := launched.stack.set 0 0x204 } 0x00EE)
    (fun t => t.pc == 0x206 && t.sp == 0 && t.stack[0] == 0x204) = true := by decide

/-- C1. -/
theorem test_ret_empty : faultsAs (stepOn launched 0x00EE) (.stackUnderflow 0x200) = true := by decide

/-- C5. -/
theorem test_jp : goesOn (stepOn launched 0x1FFF) (fun t => t.pc == 0xFFF &&
    faultsAs (coreStep t) (.addressOutOfRange 0x1000 0xFFF)) = true := by decide

/-- C4. -/
theorem test_call : goesOn (stepOn { launched with sp := 3 } 0x2400) (fun t =>
    t.stack[3] == 0x200 && t.sp == 4 && t.pc == 0x400) = true := by decide

/-- C3. -/
theorem test_call_full : faultsAs (stepOn { launched with sp := 16 } 0x2400) (.stackOverflow 0x200) = true := by
  decide

/-- C7: the skipped unsupported word raises nothing. -/
theorem test_se_imm : goesOn (stepOn (withBytes launched 0x202 [0xFF, 0xFF]) 0x3000)
    (fun t => t.pc == 0x204) = true := by decide

/-- C9. -/
theorem test_sne_imm : goesOn (stepOn launched 0x4001) (fun t => t.pc == 0x204) = true := by decide

/-- The example of R125. -/
theorem test_se_reg : goesOn (stepOn (withRegs launched [(1, 7), (2, 7)]) 0x5120)
    (fun t => t.pc == 0x204) = true := by decide

/-- C11. -/
theorem test_sne_reg : goesOn (stepOn launched 0x9110) (fun t => t.pc == 0x202) = true := by decide

/-- C6. -/
theorem test_jp_v0 : goesOn (stepOn (withRegs launched [(0, 0xFF)]) 0xBFFF) (fun t => t.pc == 0x10FE &&
    faultsAs (coreStep t) (.addressOutOfRange 0x10FE 0x10FE)) = true := by decide

/-! ### Register loads and ALU -/

/-- The example of R140. -/
theorem test_ld_imm : goesOn (stepOn launched 0x6A42) (fun t => t.getV 10 == 0x42 && t.pc == 0x202) = true := by
  decide

/-- A2: no carry is recorded. -/
theorem test_add_imm : goesOn (stepOn (withRegs launched [(1, 0xFF)]) 0x7101)
    (fun t => t.getV 1 == 0 && t.getV VF == 0) = true := by decide

/-- A20. -/
theorem test_ld_reg : goesOn (stepOn (withRegs launched [(2, 0x99)]) 0x8120)
    (fun t => t.getV 1 == 0x99) = true := by decide

/-- A3, with VF kept. -/
theorem test_or_reg : goesOn (stepOn (withRegs launched [(1, 0xF0), (2, 0x3C), (15, 0x77)]) 0x8121)
    (fun t => t.getV 1 == 0xFC && t.getV VF == 0x77) = true := by decide

/-- A3, with VF kept. -/
theorem test_and_reg : goesOn (stepOn (withRegs launched [(1, 0xF0), (2, 0x3C), (15, 0x77)]) 0x8122)
    (fun t => t.getV 1 == 0x30 && t.getV VF == 0x77) = true := by decide

/-- A3, with VF kept. -/
theorem test_xor_reg : goesOn (stepOn (withRegs launched [(1, 0xF0), (2, 0x3C), (15, 0x77)]) 0x8123)
    (fun t => t.getV 1 == 0xCC && t.getV VF == 0x77) = true := by decide

/-- A7: VF is the second operand. -/
theorem test_add_reg : goesOn (stepOn (withRegs launched [(1, 0x20), (15, 0x10)]) 0x81F4)
    (fun t => t.getV 1 == 0x30 && t.getV VF == 0) = true := by decide

/-- A8: VF is the destination, under both values of VF_WRITE_ORDER. -/
theorem test_add_reg_into_vf :
    goesOn (stepOn (withRegs launched [(15, 0xFF), (1, 1)]) 0x8F14) (fun t => t.getV VF == 1) = true ∧
    goesOn (stepOn { withRegs launched [(15, 0xFF), (1, 1)] with vfOrder := .resultLast } 0x8F14)
      (fun t => t.getV VF == 0) = true := by decide

/-- A9: equal operands leave VF 0. -/
theorem test_sub_equal : goesOn (stepOn (withRegs launched [(1, 0x40), (2, 0x40), (15, 9)]) 0x8125)
    (fun t => t.getV 1 == 0 && t.getV VF == 0) = true := by decide

/-- S4b. -/
theorem test_sub_wraps : goesOn (stepOn (withRegs launched [(1, 3), (2, 5), (15, 9)]) 0x8125)
    (fun t => t.getV 1 == 0xFE && t.getV VF == 0) = true := by decide

/-- A10: equal operands leave VF 1. -/
theorem test_subn_equal : goesOn (stepOn (withRegs launched [(1, 0x40), (2, 0x40)]) 0x8127)
    (fun t => t.getV 1 == 0 && t.getV VF == 1) = true := by decide

/-- The example of R150. -/
theorem test_subn_wraps : goesOn (stepOn (withRegs launched [(1, 5), (2, 3), (15, 9)]) 0x8127)
    (fun t => t.getV 1 == 0xFE && t.getV VF == 0) = true := by decide

/-- A13: V5 is not read. -/
theorem test_shr : goesOn (stepOn (withRegs launched [(1, 1), (5, 0x80)]) 0x8156)
    (fun t => t.getV 1 == 0 && t.getV VF == 1) = true := by decide

/-- A17. -/
theorem test_shl : goesOn (stepOn (withRegs launched [(1, 0x7F), (15, 9)]) 0x810E)
    (fun t => t.getV 1 == 0xFE && t.getV VF == 0) = true := by decide

/-- A18. -/
theorem test_rnd : goesOn (stepOn { launched with rand := 0xA7 } 0xC10F) (fun t => t.getV 1 == 7) = true := by
  decide

/-! ### Index register and memory transfer -/

/-- M1. -/
theorem test_ld_i : goesOn (stepOn launched 0xAFFF) (fun t => t.i == 0x0FFF) = true := by decide

/-- M2. -/
theorem test_add_i_wraps : goesOn (stepOn { withRegs launched [(1, 1), (15, 9)] with i := 0xFFFF } 0xF11E)
    (fun t => t.i == 0 && t.getV VF == 9) = true := by decide

/-- M4: the full byte is used. -/
theorem test_ld_f : goesOn (stepOn (withRegs launched [(1, 0xFF)]) 0xF129) (fun t => t.i == 0x54B) = true := by
  decide

/-- S5. -/
theorem test_ld_b : goesOn (stepOn { withRegs launched [(3, 234)] with i := 0x300 } 0xF333)
    (fun t => bytesAt t 0x300 3 == [2, 3, 4] && t.i == 0x300) = true := by decide

/-- M6. -/
theorem test_ld_b_out_of_range : faultsAs (stepOn { withRegs launched [(1, 123)] with i := 0xFFE } 0xF133)
    (.addressOutOfRange 0x1000 0x200) = true := by decide

/-- S6, its first half: I is unchanged. -/
theorem test_dump : goesOn (stepOn { withRegs launched [(0, 1), (1, 2), (2, 3), (3, 4), (4, 5)] with
    i := 0x300 } 0xF355) (fun t => bytesAt t 0x300 5 == [1, 2, 3, 4, 0] && t.i == 0x300) = true := by decide

/-- M8. -/
theorem test_dump_out_of_range : faultsAs (stepOn { launched with i := 0xFFD } 0xF355)
    (.addressOutOfRange 0x1000 0x200) = true := by decide

/-- M11: V3 is not loaded, and I ends past the last byte read. -/
theorem test_load : goesOn (stepOn { withBytes launched 0x300 [7, 8, 9, 10] with i := 0x300 } 0xF265)
    (fun t => t.getV 0 == 7 && t.getV 1 == 8 && t.getV 2 == 9 && t.getV 3 == 0 && t.i == 0x303) = true := by decide

/-- M10. -/
theorem test_load_out_of_range : faultsAs (stepOn { launched with i := 0x1000 } 0xF065)
    (.addressOutOfRange 0x1000 0x200) = true := by decide

/-! ### Keypad and timers -/

/-- K1. -/
theorem test_skp : goesOn (stepOn { withRegs launched [(1, 7)] with keys := 0x0080 } 0xE19E)
    (fun t => t.pc == 0x204) = true := by decide

/-- K4. -/
theorem test_skp_index_16 : faultsAs (stepOn (withRegs launched [(1, 0x10)]) 0xE19E)
    (.keyIndexOutOfRange 0x10 0x200) = true := by decide

/-- K3. -/
theorem test_sknp : goesOn (stepOn (withRegs launched [(1, 7)]) 0xE1A1) (fun t => t.pc == 0x204) = true := by
  decide

/-- K5: the lowest pressed key. -/
theorem test_ld_vx_k : goesOn (stepOn { launched with keys := 0x0208 } 0xFF0A)
    (fun t => t.getV VF == 3 && t.pc == 0x202) = true := by decide

/-- K6. -/
theorem test_ld_vx_k_none : goesOn (stepOn launched 0xF10A) (fun t => t.pc == 0x200 && t.getV 1 == 0) = true := by
  decide

/-- The example of R193. -/
theorem test_ld_vx_dt : goesOn (stepOn { launched with dt := 0x3C } 0xF107) (fun t => t.getV 1 == 0x3C) = true := by
  decide

/-- The example of R194. -/
theorem test_ld_dt_vx : goesOn (stepOn (withRegs launched [(0, 7)]) 0xF015)
    (fun t => t.dt == 7 && t.st == 0) = true := by decide

/-- K8. -/
theorem test_ld_st_vx : goesOn (stepOn (withRegs launched [(0, 1)]) 0xF018) (fun t =>
    t.st == 1 && toneActive t && !toneActive (tickTimers t)) = true := by decide

/-! ### The host, the fetch and the load -/

/-- K9. -/
theorem test_tick : (tickTimers { launched with st := 0xFF }).dt = 0 ∧
    (tickTimers { launched with st := 0xFF }).st = 0xFE := by decide

/-- S9a, as a turn of the host. -/
theorem test_three_ticks : (applyTurn ⟨3, false, 0, 0⟩ { launched with dt := 5 }).dt = 2 := by decide

/-- E1. -/
theorem test_fetch_at_fff : faultsAs (coreStep { launched with pc := 0xFFF })
    (.addressOutOfRange 0x1000 0xFFF) = true := by decide

/-- E3. -/
theorem test_unloaded_memory_is_unsupported : faultsAs (coreStep launched)
    (.unsupportedOpcode 0x0000 0x200) = true := by decide

/-- The first two bytes of P6's ROM, loaded verbatim. -/
theorem test_load_program : goesOn (loadProgram [0x60, 0x12] State.reset) (fun t =>
    bytesAt t 0x1FF 4 == [0x00, 0x60, 0x12, 0x00] && t.loaded) = true := by decide

/-- R60: glyph 5 at 0x069, its last byte and the byte after the table. -/
theorem test_glyphs : bytesAt State.reset 0x069 5 = [0xF0, 0x80, 0xF0, 0x10, 0xF0] ∧
    bytesAt State.reset 0x09E 3 = [0x80, 0x80, 0x00] := by decide

/-- A schedule in the state fixes the host's turns (log 1). -/
theorem test_schedule_fixes_the_turn : goesOn (step { placeWord (withRegs launched [(0, 7)]) 0xF015 with
    schedule := [⟨2, true, 0x0001, 0x55⟩] }) (fun t =>
      t.dt == 5 && t.keys == 1 && t.rand == 0x55 && t.schedule == [] && t.turn == 1) = true := by decide

/-- Every row of the opcode table, operands 0, decodes and runs as the first instruction after reset; RET alone
finds the stack empty (R213). -/
theorem test_every_row_runs : (opcodeRows.all fun r =>
    (decodeTableWord 16 r.fixed.toNat).map Instr.mnemonic == some r.mnemonic &&
    (goesOn (step (State.reset.withFetchWord 16 r.fixed.toNat)) (fun _ => true) ||
      r.mnemonic == "RET" && faultsAs (step (State.reset.withFetchWord 16 r.fixed.toNat))
        (.stackUnderflow 0x200))) = true := by decide

end Sys2Proof.Tests
end

section
/-! PROOFS. The step and the errors of 00_scope.md R9 and R10: which instruction a step runs, what the model's step and
the host's `step(key, rand)` make of its outcome, and that no error or refusal leaves a trace in the state. -/

namespace Sys2Proof.Machine

/-! ### The step as the execution of an instruction -/

/-- Two bytes decode to an instruction, with none left over, exactly when their word does (R55, R70). -/
theorem decode_pair_ok_iff (hi lo : Byte) (i : Instr) :
    decode [hi, lo] = .ok (i, []) ↔ decodeWord (bytePair hi lo) = some i := by
  cases h : decodeWord (bytePair hi lo) <;> simp [decode, h]

/-- The converse of `coreStep_next`: fetch and decode having succeeded, the core's step is the execution (R10). -/
theorem coreStep_eq_exec {s : State} {i : Instr} (hl : s.loaded = true) (hp : s.pc.toNat + 1 < 4096)
    (hd : decodeWord (bytePair (s.mem.read s.pc.toNat) (s.mem.read (s.pc.toNat + 1))) = some i) :
    coreStep s = exec i s := by
  rcases fetch_cases s with ⟨_, hf⟩ | ⟨hp', _⟩ | ⟨hp', _⟩
  · simp [coreStep, hl, hf, hd]
  · exact absurd hp' hp.ne
  · exact absurd hp' (Nat.lt_of_succ_lt hp).not_ge

theorem step_of_coreStep_next {s t : State} (h : coreStep s = .next t) : step s = .next (hostTurn t) := by
  simp [step, h]

theorem step_of_coreStep_fault {s : State} {f : Fault} (h : coreStep s = .fault f) : step s = .fault f := by
  simp [step, h]

theorem perform_step_of_next {s t : State} {keys : BitVec 16} {rand : Byte}
    (h : stepCall keys rand s = .next t) : perform (.step keys rand) s = (t, .ok) := by
  simp [perform, settle, h]

theorem perform_step_of_fault {s : State} {f : Fault} {keys : BitVec 16} {rand : Byte}
    (h : stepCall keys rand s = .fault f) : perform (.step keys rand) s = (s, .err f) := by
  simp [perform, settle, h]

/-! ### Errors and refusals -/

/-- Whatever an operation came to, any reply but Ok comes with the state from before it (R9, R217, R242). -/
theorem eq_of_settle_ne_ok {s t : State} {o : Host.Outcome State Fault Refusal} {r : HostReply}
    (h : settle s o = (t, r)) (hr : r ≠ .ok) : t = s := by
  cases o with
  | next u => exact absurd (Prod.mk.inj h).2.symm hr
  | fault f => exact (Prod.mk.inj h).1.symm
  | refused r' => exact (Prod.mk.inj h).1.symm

/-- Only `load_program` and `step` can fail, and both answer through `settle` (R225). -/
theorem perform_settles_or_succeeds (op : HostOp) (s : State) :
    (∃ o, perform op s = settle s o) ∨
      ∀ t, (∀ f, perform op s ≠ (t, .err f)) ∧ ∀ r, perform op s ≠ (t, .refused r) := by
  cases op with
  | loadProgram rom => exact .inl ⟨loadProgram rom s, rfl⟩
  | step keys rand => exact .inl ⟨stepCall keys rand s, rfl⟩
  | tickTimers | readFramebuffer | isDirty | clearDirty | readTone => exact .inr (by simp [perform])

end Sys2Proof.Machine

open Sys2Proof Sys2Proof.Machine

/-- Settles O7: the inputs of a host's step change neither the load, nor pc, nor memory, so the same instruction
runs on both ways into the core, and each clause reads off what is made of its outcome. -/
theorem stepRunsTheDecodedInstruction : Obligations.StepRunsTheDecodedInstruction := by
  intro s i hl hp hdec
  have hd := (decode_pair_ok_iff _ _ i).mp hdec
  have hcore : coreStep s = exec i s := coreStep_eq_exec hl hp hd
  have hcall (keys : BitVec 16) (rand : Byte) :
      stepCall keys rand s = exec i { s with keys := keys, rand := rand } :=
    coreStep_eq_exec (s := { s with keys := keys, rand := rand }) hl hp hd
  refine ⟨hcore, fun t h => ?_, fun f h => ?_, fun keys rand t h => ?_, fun keys rand f h => ?_⟩
  · exact step_of_coreStep_next (hcore.trans h)
  · exact step_of_coreStep_fault (hcore.trans h)
  · exact perform_step_of_next ((hcall keys rand).trans h)
  · exact perform_step_of_fault ((hcall keys rand).trans h)

/-- Settles O52: an operation that can fail settles its outcome, and settling an error or a refusal keeps the state. -/
theorem errorsLeaveTheStateUnchanged : Obligations.ErrorsLeaveTheStateUnchanged := by
  intro op s t
  rcases perform_settles_or_succeeds op s with ⟨o, ho⟩ | hok
  · rw [ho]
    exact ⟨fun _ h => eq_of_settle_ne_ok h nofun, fun _ h => eq_of_settle_ne_ok h nofun⟩
  · exact ⟨fun f h => absurd h ((hok t).1 f), fun r h => absurd h ((hok t).2 r)⟩

end

section
/-! PROOFS. The state of 10_state.md: what an instruction that completes does to each element of it, the cells the host
reads from the framebuffer (R31), and the invariant that every step keeps. The inversion `exec_next` is the one case
split behind them all: each lemma names the effects that touch its element, and every other effect leaves it. -/

namespace Sys2Proof.Machine

variable {s t : State} {i : Instr}

/-! ### Skips, keys and registers -/

@[simp] theorem skipTaken_seImm (x : Reg) (nn : Byte) : SkipTaken (.seImm x nn) s ↔ s.getV x = nn := by
  simpa [SkipTaken] using eq_comm

@[simp] theorem skipTaken_sneImm (x : Reg) (nn : Byte) : SkipTaken (.sneImm x nn) s ↔ s.getV x ≠ nn := by
  simp [SkipTaken]

@[simp] theorem skipTaken_seReg (x y : Reg) : SkipTaken (.seReg x y) s ↔ s.getV x = s.getV y := by
  simp [SkipTaken]

@[simp] theorem skipTaken_sneReg (x y : Reg) : SkipTaken (.sneReg x y) s ↔ s.getV x ≠ s.getV y := by
  simp [SkipTaken]

@[simp] theorem skipTaken_skp (x : Reg) :
    SkipTaken (.skp x) s ↔ s.keys.getLsbD (s.getV x).toNat = true := by
  simp [SkipTaken]

@[simp] theorem skipTaken_sknp (x : Reg) :
    SkipTaken (.sknp x) s ↔ s.keys.getLsbD (s.getV x).toNat = false := by
  simp [SkipTaken]

/-- There is no lowest pressed key exactly when no key is pressed (R192). -/
theorem lowestKey_eq_none_iff {keys : BitVec 16} : lowestKey keys = none ↔ keys = 0 := by
  constructor
  · intro h
    refine BitVec.eq_of_getLsbD_eq fun k hk => ?_
    simpa using lowestKey_none h ⟨k, hk⟩
  · rintro rfl
    decide

/-- A plain write of a register leaves VF, unless VF is its destination (R22). -/
theorem getV_VF_advance_setV (x : Reg) (b : Byte) :
    ((s.setV x b).advance).getV VF = s.getV VF ∨ x = VF := by
  rw [getV_advance_setV]
  by_cases hx : VF = x
  · exact .inr hx.symm
  · exact .inl (if_neg hx)

/-- A load leaves the registers above those it has bytes for (R175). -/
theorem loadRange_getV_above (x : Reg) {bs : List Byte} {k : Reg} (hk : bs.length ≤ k.val) :
    (loadRange s x bs).getV k = s.getV k := by
  simp [State.getV, loadRegs_getElem, hk]

namespace Effect

/-! ### `pc` (R25) -/

theorem pc_of_skipTaken (h : Effect s i t) (hs : SkipTaken i s) : t.pc = s.pc + 4 := by
  cases h
  case seImm | sneImm | seReg | sneReg | skp | sknp => rw [skipIf_pc, if_pos (by simpa using hs)]
  all_goals simp [SkipTaken] at hs

theorem eq_self_of_keys_zero {x : Reg} (h : Effect s (.ldVxK x) t) (hk : s.keys = 0) : t = s := by
  cases h with
  | ldVxK _ k hlow => cases hlow.symm.trans (lowestKey_eq_none_iff.mpr hk)
  | ldVxKNone => rfl

theorem pc_of_jp_or_call {nnn : Addr} (h : Effect s i t) (hi : i = .jp nnn ∨ i = .call nnn) :
    t.pc.toNat = nnn.toNat := by
  rcases hi with rfl | rfl <;> cases h <;> exact wideAddr_toNat nnn

theorem pc_of_jpV0 {nnn : Addr} (h : Effect s (.jpV0 nnn) t) :
    t.pc.toNat = nnn.toNat + (s.getV 0).toNat := by
  cases h
  exact offsetTarget_toNat s nnn

theorem pc_of_ret (h : Effect s .ret t) : ∃ w, s.stack[s.sp.val - 1]? = some w ∧ t.pc = w + 2 := by
  cases h with
  | ret _ hlt => exact ⟨_, Vector.getElem?_eq_getElem hlt, rfl⟩

theorem pc_of_otherwise (h : Effect s i t) (hs : ¬ SkipTaken i s) (hk : ∀ x, i = .ldVxK x → s.keys ≠ 0)
    (hj : ∀ nnn, i ≠ .jp nnn ∧ i ≠ .call nnn ∧ i ≠ .jpV0 nnn) (hr : i ≠ .ret) : t.pc = s.pc + 2 := by
  cases h
  case seImm | sneImm | seReg | sneReg | skp | sknp => rw [skipIf_pc, if_neg (by simpa using hs)]
  case ret => exact absurd rfl hr
  case jp nnn => exact absurd rfl (hj nnn).1
  case call nnn _ => exact absurd rfl (hj nnn).2.1
  case jpV0 nnn => exact absurd rfl (hj nnn).2.2
  case ldVxKNone x hnone => exact absurd (lowestKey_eq_none_iff.mp hnone) (hk x rfl)
  all_goals simp

/-! ### The timers and the display (R29 to R32) -/

theorem dt_cases (h : Effect s i t) : t.dt = s.dt ∨ ∃ x, i = .ldDtVx x := by
  cases h
  case ldDtVx x => exact .inr ⟨x, rfl⟩
  all_goals exact .inl (by simp)

theorem st_cases (h : Effect s i t) : t.st = s.st ∨ ∃ x, i = .ldStVx x := by
  cases h
  case ldStVx x => exact .inr ⟨x, rfl⟩
  all_goals exact .inl (by simp)

theorem dirty_of_cls_or_drw (h : Effect s i t) (hi : i = .cls ∨ ∃ x y n, i = .drw x y n) :
    t.dirty = true := by
  rcases hi with rfl | ⟨x, y, n, rfl⟩ <;> cases h <;> rfl

theorem sameDisplay (h : Effect s i t) (hi : ¬ (i = .cls ∨ ∃ x y n, i = .drw x y n)) :
    SameDisplay s t := by
  cases h
  case cls => exact absurd (.inl rfl) hi
  case drw x y n _ => exact absurd (.inr ⟨x, y, n, rfl⟩) hi
  all_goals simp [SameDisplay]

/-! ### The invariant -/

/-- Memory is written by FX33 and FX55 alone, inside the address space (R54). -/
theorem mem_wf (h : Effect s i t) (hm : s.mem.wf) : t.mem.wf := by
  cases h
  case ldB x hlt => exact Memory.wf_writeAll hm _ _ hlt
  case dump x hlt => exact Memory.wf_writeAll hm _ _ ((rangeBytes_length s x).symm ▸ hlt)
  all_goals simpa using hm

/-- From a fetchable address `pc` goes to 0x10FE, the largest target of BNNN, at most (R25, R127). -/
theorem pc_le (h : Effect s i t) (hinv : Inv s) (hpc : s.pc.toNat ≤ 0xFFE) : t.pc.toNat ≤ 0x10FE := by
  obtain ⟨-, -, hlive⟩ := hinv
  cases h
  case ret h0 hlt =>
    have hentry := hlive ⟨s.sp.val - 1, hlt⟩ (by simp only; omega)
    simp only [setPc_pc] at hentry ⊢
    bv_omega
  case jp nnn | call nnn _ =>
    rw [setPc_pc, wideAddr_toNat]
    omega
  case jpV0 nnn =>
    rw [setPc_pc, offsetTarget_toNat]
    omega
  case seImm | sneImm | seReg | sneReg | skp | sknp =>
    rw [skipIf_pc]
    split <;> bv_omega
  case ldVxKNone => omega
  all_goals
    have hnext : (s.pc + 2).toNat ≤ 0x10FE := by bv_omega
    simpa using hnext

/-- CALL pushes its own address, RET uncovers no entry, and nothing else touches the stack (R28, R120). -/
theorem stack_le (h : Effect s i t) (hinv : Inv s) (hpc : s.pc.toNat ≤ 0xFFE) (k : Fin 16)
    (hk : k.val < t.sp.val) : t.stack[k.val].toNat ≤ 0xFFE := by
  obtain ⟨-, -, hlive⟩ := hinv
  cases h
  case ret h0 hlt => exact hlive k (Nat.lt_of_lt_of_le hk (Nat.sub_le ..))
  case call nnn hlt =>
    simp only [setPc_stack, setPc_sp, Vector.getElem_set] at hk ⊢
    split
    · exact hpc
    · exact hlive k (by omega)
  all_goals simpa using hlive k (by simpa using hk)

theorem keeps_inv (h : Effect s i t) (hinv : Inv s) (hpc : s.pc.toNat ≤ 0xFFE) : Inv t :=
  ⟨h.mem_wf hinv.1, h.pc_le hinv hpc, h.stack_le hinv hpc⟩

end Effect

/-- A step of the core keeps the invariant: the instruction it ran was fetched at 0xFFE or below (R55). -/
theorem coreStep_keeps_inv (h : coreStep s = .next t) (hinv : Inv s) : Inv t := by
  obtain ⟨-, hpc, i, -, hexec⟩ := coreStep_next h
  exact (exec_next hexec).keeps_inv hinv (by omega)

/-- The host's turn touches nothing the invariant speaks of (log 1). -/
theorem hostTurn_keeps_inv (hinv : Inv s) : Inv (hostTurn s) := hinv

/-! ### The framebuffer read (R31) -/

theorem readFramebuffer_length (s : State) : (readFramebuffer s).length = 2048 := by
  simp [readFramebuffer]

/-- Cell (r, c) is read at place `r * 64 + c`. -/
theorem readFramebuffer_getElem? (s : State) (r : Fin 32) (c : Fin 64) :
    (readFramebuffer s)[r.val * 64 + c.val]? = some (s.fb.cell r c) := by
  have hplace : r.val * 64 + c.val < 32 * 64 := by omega
  have hrow : (r.val * 64 + c.val) / 64 = r.val := by omega
  have hcol : (r.val * 64 + c.val) % 64 = c.val := by omega
  rw [readFramebuffer, Vector.getElem?_toList, Vector.getElem?_eq_getElem hplace, Vector.getElem_flatten]
  simp only [hrow, hcol, Framebuffer.cell]

end Sys2Proof.Machine

open Sys2Proof Sys2Proof.Machine

/-- Settles O56: the core's step keeps the invariant, and so does the host's turn after it. -/
theorem stepKeepsTheInvariant : Obligations.StepKeepsTheInvariant := by
  intro s t hinv h
  obtain ⟨u, hu, rfl⟩ := step_next h
  exact hostTurn_keeps_inv (coreStep_keeps_inv hu hinv)

/-- Settles O24: one lemma per way of setting `pc`. -/
theorem pcUpdatesOfEveryInstruction : Obligations.PcUpdatesOfEveryInstruction := by
  intro i s t h
  have he : Effect s i t := exec_next h
  refine ⟨he.pc_of_skipTaken, ?_, fun nnn => he.pc_of_jp_or_call, ?_, ?_, he.pc_of_otherwise⟩
  · rintro x rfl hk
    exact he.eq_self_of_keys_zero hk
  · rintro nnn rfl
    exact he.pc_of_jpV0
  · rintro rfl
    exact he.pc_of_ret

/-- Settles O32: VF is a flag of the ALU writers and of DRW, and else changes as a destination only. -/
theorem onlyFlagWritersChangeVf : Obligations.OnlyFlagWritersChangeVf := by
  intro i s t h
  cases exec_next h
  case addReg x y | subReg x y | subnReg x y | shr x y | shl x y => exact .inr (.inl ⟨x, y, by simp⟩)
  case drw x y n _ => exact .inr (.inr (.inl ⟨x, y, n, rfl⟩))
  case ldImm x nn | addImm x nn | rnd x nn =>
    refine (getV_VF_advance_setV x _).imp_right fun hx => .inr (.inr ⟨0, nn, ?_⟩)
    simp [hx]
  case ldReg x y | orReg x y | andReg x y | xorReg x y =>
    refine (getV_VF_advance_setV x _).imp_right fun hx => .inr (.inr ⟨y, 0, ?_⟩)
    simp [hx]
  case ldVxDt x | ldVxK x _ _ =>
    refine (getV_VF_advance_setV x _).imp_right fun hx => .inr (.inr ⟨0, 0, ?_⟩)
    simp [hx]
  case load x _ =>
    by_cases hx : x = VF
    · exact .inr (.inr (.inr ⟨0, 0, by simp [hx]⟩))
    · have hlt : x.val + 1 ≤ 15 := by
        have : x.val ≠ 15 := fun h => hx (Fin.ext h)
        omega
      exact .inl (loadRange_getV_above x (by simpa using hlt))
  all_goals exact .inl rfl

/-- Settles O40: the four writers of I are their own cases, and every other effect leaves I. -/
theorem onlyIndexWritersChangeIndex : Obligations.OnlyIndexWritersChangeIndex := by
  intro i s t h
  cases exec_next h
  case ldI nnn => exact .inr (.inl ⟨nnn, rfl⟩)
  case addI x | ldF x | load x _ => exact .inr (.inr ⟨x, by simp⟩)
  all_goals exact .inl (by simp)

/-- Settles O48: the two timers apart. -/
theorem stepsNeverTick : Obligations.StepsNeverTick :=
  fun _ _ _ h => ⟨(exec_next h).dt_cases, (exec_next h).st_cases⟩

/-- Settles O49: CLS and DRW go through `setDisplay`, and every other effect leaves the display. -/
theorem onlyClsAndDrawChangeTheDisplay : Obligations.OnlyClsAndDrawChangeTheDisplay :=
  fun _ _ _ h => ⟨(exec_next h).dirty_of_cls_or_drw, (exec_next h).sameDisplay⟩

/-- Settles O50: the effects of CALL and RET are the only ones on the stack. -/
theorem onlyCallAndReturnChangeTheStack : Obligations.OnlyCallAndReturnChangeTheStack := by
  intro i s t h
  cases exec_next h
  case call nnn _ => exact .inr (.inl ⟨⟨nnn, rfl⟩, rfl⟩)
  case ret hsp _ => exact .inr (.inr ⟨rfl, rfl, Nat.sub_one_add_one hsp⟩)
  all_goals exact .inl (by simp [SameStack])

/-- Settles O51: every update of the state that an effect is made of keeps the six fields, by its own law. -/
theorem instructionsKeepTheModelFields : Obligations.InstructionsKeepTheModelFields := by
  intro i s t h
  cases exec_next h <;> simp [SameModelFields]

/-- Settles O17, by the library's law of a flattened vector. -/
theorem framebufferReadIsRowMajor : Obligations.FramebufferReadIsRowMajor :=
  fun s => ⟨readFramebuffer_length s, readFramebuffer_getElem? s⟩

end

section
/-! PROOFS. The memory of 20_memory.md: the fetch as a big-endian read of two bytes (R55), an instruction stored and
fetched again (R68), the instructions that write memory (R54), and the canonical form, in which the bytes read fix the
list (log 6). -/

namespace Sys2Proof.Machine

/-! ### The fetch (R55) -/

/-- A pair of bytes read as a word does not wrap (R6). -/
theorem bytePair_toNat (hi lo : Byte) : (bytePair hi lo).toNat = hi.toNat * 256 + lo.toNat := by
  simp only [bytePair, BitVec.toNat_ofNat]
  omega

theorem fetch_eq_ok {s : State} (h : s.pc.toNat + 1 < 4096) :
    fetch s = .ok (bytePair (s.mem.read s.pc.toNat) (s.mem.read (s.pc.toNat + 1))) := by
  rcases fetch_cases s with ⟨_, hf⟩ | ⟨hend, _⟩ | ⟨hout, _⟩
  · exact hf
  · exact absurd hend h.ne
  · exact absurd hout (Nat.lt_of_succ_lt h).not_ge

theorem fetch_eq_error_of_last {s : State} (h : s.pc.toNat = 4095) :
    fetch s = .error (.addressOutOfRange 4096 s.pc) := by
  rcases fetch_cases s with ⟨hin, _⟩ | ⟨_, hf⟩ | ⟨hout, _⟩
  · rw [h] at hin
    exact absurd hin (by decide)
  · exact hf
  · rw [h] at hout
    exact absurd hout (by decide)

theorem fetch_eq_error_of_outside {s : State} (h : 4096 ≤ s.pc.toNat) :
    fetch s = .error (.addressOutOfRange s.pc.toNat s.pc) := by
  rcases fetch_cases s with ⟨hin, _⟩ | ⟨hend, _⟩ | ⟨_, hf⟩
  · exact absurd (Nat.lt_of_succ_lt hin) h.not_gt
  · exact absurd (Nat.lt_of_succ_le hend.le) h.not_gt
  · exact hf

/-- An error of the fetch is the step's (R218). -/
theorem step_of_fetch_error {s : State} {f : Fault} (hl : s.loaded = true) (hf : fetch s = .error f) :
    step s = .fault f :=
  step_of_coreStep_fault (by simp [coreStep, hl, hf, raise, finish])

/-! ### The bytes a load and a store leave (R174, R241) -/

theorem read_loadProgram {rom : List Byte} {s t : State} {k : Nat} {b : Byte}
    (h : loadProgram rom s = .next t) (hk : rom[k]? = some b) : t.mem.read (0x200 + k) = b := by
  rcases loadProgram_cases rom s with ⟨_, heq⟩ | ⟨_, _, heq⟩ | ⟨_, _, heq⟩ <;> rw [heq] at h <;> cases h
  exact Memory.read_writeAll_inside _ _ _ _ _ hk

namespace Effect

variable {s t : State} {x : Reg}

/-- LD [I], Vx completes only where the last byte it stores has an address (R174). -/
theorem dump_inside (h : Effect s (.dump x) t) : s.i.toNat + x.val < 4096 := by
  cases h with
  | dump _ hlt => exact hlt

/-- The byte of each register of the range stands at its place from I on (R174). -/
theorem read_dump (h : Effect s (.dump x) t) {k : Reg} (hk : k ≤ x) :
    t.mem.read (s.i.toNat + k.val) = s.getV k := by
  cases h with
  | dump => exact Memory.read_writeAll_inside _ _ _ _ _ (rangeBytes_getElem? s x k hk)

end Effect

/-! ### The canonical form (log 6) -/

/-- As addresses rise strictly, no earlier cell hides a listed one. -/
theorem Memory.read_of_mem {m : Memory} (h : m.wf) {c : Host.Cell} (hc : c ∈ m) : m.read c.1 = c.2 := by
  obtain ⟨hrise, -⟩ := h
  induction m with
  | nil => cases hc
  | cons d m ih =>
    obtain ⟨hd, hm⟩ := List.pairwise_cons.mp hrise
    rcases List.mem_cons.mp hc with rfl | hc
    · simp [Memory.read]
    · rw [Memory.read, if_neg (hd c hc).ne, ih hc hm]

/-- A canonical memory lists exactly the bytes of the address space that construction did not leave (R59). -/
theorem Memory.mem_iff_of_wf {m : Memory} (h : m.wf) (c : Host.Cell) :
    c ∈ m ↔ c.1 < 4096 ∧ m.read c.1 = c.2 ∧ c.2 ≠ initialByte c.1 := by
  constructor
  · intro hc
    obtain ⟨hlt, hne⟩ := h.2 c hc
    exact ⟨hlt, Memory.read_of_mem h hc, hne⟩
  · rintro ⟨-, hread, hne⟩
    have hlisted : ∃ d ∈ m, d.1 = c.1 := by
      by_contra hun
      push Not at hun
      exact hne (hread.symm.trans (m.read_of_unlisted c.1 hun))
    obtain ⟨d, hd, haddr⟩ := hlisted
    have hbyte : d.2 = c.2 := by rw [← Memory.read_of_mem h hd, haddr, hread]
    rwa [← show d = c from Prod.ext haddr hbyte]

/-- Lists of cells by strictly rising address are equal when they have the same cells. -/
theorem Memory.eq_of_mem_iff {m n : Memory} (hm : m.wf) (hn : n.wf) (h : ∀ c, c ∈ m ↔ c ∈ n) : m = n := by
  have : Std.Asymm fun c d : Host.Cell => c.1 < d.1 := ⟨fun _ _ => Nat.lt_asymm⟩
  exact hm.1.eq_of_mem_iff hn.1 h

end Sys2Proof.Machine

open Sys2Proof Sys2Proof.Machine

/-- Settles O8: each clause is one answer of the fetch or of the load. -/
theorem fetchReadsABigEndianWord : Obligations.FetchReadsABigEndianWord := by
  refine ⟨fun s h => ⟨_, fetch_eq_ok h, bytePair_toNat _ _⟩, fun s hl h => ?_, fun s hl h => ?_,
    fun s t rom k b h hk => read_loadProgram h hk⟩
  · exact step_of_fetch_error hl (fetch_eq_error_of_outside h)
  · exact step_of_fetch_error hl (fetch_eq_error_of_last h)

/-- Settles O38: the store wrote V[k] and V[k+1] at I + k and I + k + 1, both inside the address space, so that `pc`
holds I + k unwrapped and the fetch reads the two bytes back. -/
theorem storedInstructionIsFetched : Obligations.StoredInstructionIsFetched := by
  intro s t x k hk hx h
  have he : Effect s (.dump x) t := exec_next h
  have hend := he.dump_inside
  have hpc : (BitVec.ofNat 16 (s.i.toNat + k.val)).toNat = s.i.toNat + k.val := by
    rw [BitVec.toNat_ofNat]
    omega
  have hlo : t.mem.read (s.i.toNat + k.val + 1) = s.getV ⟨k.val + 1, hk⟩ :=
    he.read_dump (k := ⟨k.val + 1, hk⟩) hx
  rw [fetch_eq_ok (by rw [setPc_pc, hpc]; omega), setPc_pc, setPc_mem, hpc, hlo,
    he.read_dump (Nat.le_of_succ_le hx)]

/-- Settles O39: FX33 and FX55 are their own cases, and every other effect leaves the memory it found. -/
theorem onlyStoresChangeMemory : Obligations.OnlyStoresChangeMemory := by
  intro i s t h
  cases exec_next h
  case ldB x _ | dump x _ => exact .inr ⟨x, by simp⟩
  all_goals exact .inl fun a => by simp

/-- Settles O58: the bytes read say which cells a canonical memory lists, and the cells fix the list. -/
theorem canonicalMemoriesThatReadAlikeAreEqual : Obligations.CanonicalMemoriesThatReadAlikeAreEqual := by
  intro m n hm hn h
  refine Memory.eq_of_mem_iff hm hn fun c => ?_
  rw [Memory.mem_iff_of_wf hm, Memory.mem_iff_of_wf hn]
  exact and_congr_right fun hlt => by rw [h c.1 hlt]

end

section
/-! PROOFS. The encoding of 30_encoding.md: a word is its op and one of the overlapping field groups of R71, so the
decoder and the encoder invert each other (R72 to R74); a row of the opcode table that selects a word fixes the fields
the dispatch reads, so the table (R75) and the dispatch agree, and the words that no row selects are the classes of R76. -/

namespace Sys2Proof

/-! ### A word rebuilt from its fields (R71, R72) -/

theorem formNNN_fields (w : Word) : formNNN (opField w) (nnnField w) = w := by
  obtain ⟨hw, hop, -, hnnn⟩ := word_fields w
  apply BitVec.eq_of_toNat_eq
  rw [formNNN_toNat _ _ hop, hnnn, hw]
  omega

theorem formXNN_fields (w : Word) : formXNN (opField w) (xField w) (nnField w) = w := by
  obtain ⟨hw, hop, hnn, -⟩ := word_fields w
  apply BitVec.eq_of_toNat_eq
  rw [formXNN_toNat _ _ _ hop, hnn, hw]
  omega

theorem formXYN_fields (w : Word) : formXYN (opField w) (xField w) (yField w) (nField w) = w := by
  obtain ⟨hw, hop, -, -⟩ := word_fields w
  apply BitVec.eq_of_toNat_eq
  rw [formXYN_toNat _ _ _ _ hop, hw]

/-! ### Decoding what was encoded -/

/-- The formats of R72 give back every field that the dispatch of R74 reads, and every operand. -/
theorem decodeWord_encodeWord (i : Instr) : decodeWord (encodeWord i) = some i := by
  cases i
  case cls | ret => rfl
  case jp | call | ldI | jpV0 =>
    simp [encodeWord, decodeWord, opField_formNNN, nnnField_formNNN]
  case seImm | sneImm | ldImm | addImm | rnd =>
    simp [encodeWord, decodeWord, opField_formXNN, xField_formXNN, nnField_formXNN]
  case seReg | sneReg | drw =>
    simp [encodeWord, decodeWord, opField_formXYN, xField_formXYN, yField_formXYN, nField_formXYN]
  case skp | sknp =>
    simp [encodeWord, decodeWord, decodeOpE, opField_formXNN, xField_formXNN, nnField_formXNN]
  case ldVxK | ldVxDt | ldDtVx | ldStVx | addI | ldF | ldB | dump | load =>
    simp [encodeWord, decodeWord, decodeOpF, opField_formXNN, xField_formXNN, nnField_formXNN]
  case ldReg | orReg | andReg | xorReg | addReg | subReg | shr | subnReg | shl =>
    simp [encodeWord, decodeWord, decodeOp8, opField_formXYN, xField_formXYN, yField_formXYN,
      nField_formXYN]

/-! ### Encoding what was decoded -/

section
variable {w : Word} {i : Instr}

theorem encodeWord_of_decodeOp0 (h : decodeOp0 w = some i) : encodeWord i = w := by
  unfold decodeOp0 at h
  iterate 2
    split at h
    · next hw => cases h; exact hw.symm
  cases h

/-- The nibble n that selects the branch is the one the encoder puts there (R74 step 4). -/
theorem encodeWord_of_decodeOp8 (hop : opField w = 0x8) (h : decodeOp8 w = some i) :
    encodeWord i = w := by
  have hw := formXYN_fields w
  rw [hop] at hw
  unfold decodeOp8 at h
  dsimp only at h
  split at h
  case h_10 => cases h
  all_goals next hn => cases h; rwa [hn] at hw

/-- The byte nn that selects the branch is the one the encoder puts there (R74 step 5). -/
theorem encodeWord_of_decodeOpE (hop : opField w = 0xE) (h : decodeOpE w = some i) :
    encodeWord i = w := by
  have hw := formXNN_fields w
  rw [hop] at hw
  unfold decodeOpE at h
  iterate 2
    split at h
    · next hnn => cases h; rwa [hnn] at hw
  cases h

/-- The byte nn that selects the branch is the one the encoder puts there (R74 step 5). -/
theorem encodeWord_of_decodeOpF (hop : opField w = 0xF) (h : decodeOpF w = some i) :
    encodeWord i = w := by
  have hw := formXNN_fields w
  rw [hop] at hw
  unfold decodeOpF at h
  dsimp only at h
  iterate 9
    split at h
    · next hnn => cases h; rwa [hnn] at hw
  cases h

/-- What the dispatch has not read of a word stands in the operands (R74). The cases are those of `decodeWord`: case
`h_k` is op k - 1, and the last is no op. -/
theorem encodeWord_of_decodeWord (h : decodeWord w = some i) : encodeWord i = w := by
  have hNNN := formNNN_fields w
  have hXNN := formXNN_fields w
  have hXYN := formXYN_fields w
  unfold decodeWord at h
  split at h
  case h_1 => exact encodeWord_of_decodeOp0 h
  case h_9 hop => exact encodeWord_of_decodeOp8 hop h
  case h_15 hop => exact encodeWord_of_decodeOpE hop h
  case h_16 hop => exact encodeWord_of_decodeOpF hop h
  case h_6 hop | h_10 hop =>
    split at h
    · next hn => cases h; rw [hop, hn] at hXYN; exact hXYN
    · cases h
  case h_2 hop | h_3 hop | h_11 hop | h_12 hop => cases h; rw [hop] at hNNN; exact hNNN
  case h_4 hop | h_5 hop | h_7 hop | h_8 hop | h_13 hop => cases h; rw [hop] at hXNN; exact hXNN
  case h_14 hop => cases h; rw [hop] at hXYN; exact hXYN
  case h_17 => cases h

end

/-! ### The rows of the opcode table (R75) -/

section
variable {m : String} {f w : Word}

theorem eq_of_selects_word (h : (⟨m, f, 0xFFFF⟩ : OpcodeRow).selects w = true) : w = f := by
  rwa [selects_word, decide_eq_true_eq] at h

theorem opField_of_selects_op (h : (⟨m, f, 0xF000⟩ : OpcodeRow).selects w = true) :
    opField w = f.toNat / 0x1000 := by
  rw [selects_op, decide_eq_true_eq] at h
  omega

theorem fields_of_selects_op_n (h : (⟨m, f, 0xF00F⟩ : OpcodeRow).selects w = true) :
    opField w = f.toNat / 0x1000 ∧ nField w = Fin.ofNat 16 f.toNat := by
  rw [selects_op_n, decide_eq_true_eq] at h
  refine ⟨by omega, Fin.ext ?_⟩
  rw [Fin.val_ofNat]
  omega

theorem fields_of_selects_op_nn (h : (⟨m, f, 0xF0FF⟩ : OpcodeRow).selects w = true) :
    opField w = f.toNat / 0x1000 ∧ nnField w = BitVec.ofNat 8 f.toNat := by
  rw [selects_op_nn, decide_eq_true_eq] at h
  refine ⟨by omega, BitVec.eq_of_toNat_eq ?_⟩
  rw [BitVec.toNat_ofNat]
  omega

end

/-- The fields that a row fixes lead the dispatch to the instruction of the row (R74, R75). -/
theorem mnemonic_of_selects {r : OpcodeRow} {w : Word} (hr : r ∈ opcodeRows)
    (h : r.selects w = true) : (decodeWord w).map Instr.mnemonic = some r.mnemonic := by
  simp only [opcodeRows, List.mem_append] at hr
  rcases hr with hr | hr | hr
  · simp only [opcodeRowsLow, List.mem_cons, List.not_mem_nil, or_false] at hr
    rcases hr with rfl | rfl | rfl | rfl | rfl | rfl | rfl | rfl | rfl
    iterate 2 · rw [eq_of_selects_word h]; rfl
    iterate 4 · simp [decodeWord, opField_of_selects_op h, Instr.mnemonic]
    · obtain ⟨hop, hn⟩ := fields_of_selects_op_n h
      simp [decodeWord, hop, hn, Instr.mnemonic]
    iterate 2 · simp [decodeWord, opField_of_selects_op h, Instr.mnemonic]
  · simp only [opcodeRowsAlu, List.mem_cons, List.not_mem_nil, or_false] at hr
    rcases hr with rfl | rfl | rfl | rfl | rfl | rfl | rfl | rfl | rfl <;>
      obtain ⟨hop, hn⟩ := fields_of_selects_op_n h <;>
      simp [decodeWord, decodeOp8, hop, hn, Instr.mnemonic]
  · simp only [opcodeRowsHigh, List.mem_cons, List.not_mem_nil, or_false] at hr
    rcases hr with rfl | rfl | rfl | rfl | rfl | hr
    · obtain ⟨hop, hn⟩ := fields_of_selects_op_n h
      simp [decodeWord, hop, hn, Instr.mnemonic]
    iterate 4 · simp [decodeWord, opField_of_selects_op h, Instr.mnemonic]
    rcases hr with rfl | rfl | rfl | rfl | rfl | rfl | rfl | rfl | rfl | rfl | rfl <;>
      obtain ⟨hop, hnn⟩ := fields_of_selects_op_nn h <;>
      simp [decodeWord, decodeOpE, decodeOpF, hop, hnn, Instr.mnemonic]

/-- The per-instruction family, for every instruction (R75). -/
theorem encodedInRow (i : Instr) : Laws.EncodedInRow.Statement i := by
  open Laws.EncodedInRow in
  cases i
  exacts [cls, ret, jp _, call _, seImm _ _, sneImm _ _, seReg _ _, ldImm _ _, addImm _ _,
    ldReg _ _, orReg _ _, andReg _ _, xorReg _ _, addReg _ _, subReg _ _, shr _ _, subnReg _ _,
    shl _ _, sneReg _ _, ldI _, jpV0 _, rnd _ _, drw _ _ _, skp _, sknp _, ldVxK _, ldVxDt _,
    ldDtVx _, ldStVx _, addI _, ldF _, ldB _, dump _, load _]

theorem exists_row_of_decodeWord {w : Word} {i : Instr} (h : decodeWord w = some i) :
    ∃ r ∈ opcodeRows, r.selects w = true := by
  obtain ⟨r, hr, -, hfix⟩ := encodedInRow i
  rw [encodeWord_of_decodeWord h] at hfix
  exact ⟨r, hr, beq_iff_eq.mpr hfix⟩

/-- The table and the dispatch agree on every word: a row that selects it is that of what it decodes to, and a word
that decodes is the encoding of an instruction, which has a row. -/
theorem rowOf_eq_map_decodeWord (w : Word) : rowOf w = (decodeWord w).map Instr.mnemonic := by
  unfold rowOf
  cases hf : opcodeRows.find? (·.selects w) with
  | some r =>
    have hsel : r.selects w = true := by simpa using List.find?_some hf
    exact (mnemonic_of_selects (List.mem_of_find?_eq_some hf) hsel).symm
  | none =>
    cases hd : decodeWord w with
    | none => rfl
    | some i =>
      obtain ⟨r, hr, hsel⟩ := exists_row_of_decodeWord hd
      exact absurd hsel (List.find?_eq_none.mp hf r hr)

theorem row_eq_of_mnemonic_eq {r₁ r₂ : OpcodeRow} (h₁ : r₁ ∈ opcodeRows) (h₂ : r₂ ∈ opcodeRows)
    (h : r₁.mnemonic = r₂.mnemonic) : r₁ = r₂ :=
  have hnodup : (opcodeRows.map (·.mnemonic)).Nodup := by decide
  List.inj_on_of_nodup_map hnodup h₁ h₂ h

/-! ### The words that are no instruction (R76) -/

section
variable (w : Word)

theorem decodeOp0_eq_none_iff : decodeOp0 w = none ↔ w ≠ 0x00E0 ∧ w ≠ 0x00EE := by
  simp [decodeOp0, ite_eq_iff]

theorem decodeOp8_eq_none_iff : decodeOp8 w = none ↔
    nField w ∈ ([0x8, 0x9, 0xA, 0xB, 0xC, 0xD, 0xF] : List (Fin 16)) := by
  unfold decodeOp8
  generalize nField w = n
  fin_cases n <;> simp

theorem decodeOpE_eq_none_iff : decodeOpE w = none ↔ nnField w ∉ ([0x9E, 0xA1] : List Byte) := by
  simp [decodeOpE, ite_eq_iff]

theorem decodeOpF_eq_none_iff : decodeOpF w = none ↔
    nnField w ∉ ([0x07, 0x0A, 0x15, 0x18, 0x1E, 0x29, 0x33, 0x55, 0x65] : List Byte) := by
  simp [decodeOpF, ite_eq_iff]

end

end Sys2Proof

open Sys2Proof Sys2Proof.Machine

/-- Settles O1: a word's two bytes decode as the word does, and decoding the word of an instruction gives it back. -/
theorem decodeInvertsEncode : Obligations.DecodeInvertsEncode :=
  fun i rest => decode_wordBytes (encodeWord i) i rest (decodeWord_encodeWord i)

/-- Settles O2: the word is rebuilt from the fields that the dispatch has read. -/
theorem encodeInvertsDecode : Obligations.EncodeInvertsDecode :=
  fun _ _ => encodeWord_of_decodeWord

/-- Settles O3, as the table and the dispatch agree on every word. -/
theorem decoderSelectsTheTableRow : Obligations.DecoderSelectsTheTableRow :=
  fun w => (rowOf_eq_map_decodeWord w).symm

/-- Settles O4: both rows bear the mnemonic of what the word decodes to, and no two rows share one. -/
theorem opcodeRowsAreDisjoint : Obligations.OpcodeRowsAreDisjoint := by
  intro w r₁ r₂ h₁ h₂ hsel₁ hsel₂
  have h : some r₁.mnemonic = some r₂.mnemonic :=
    (mnemonic_of_selects h₁ hsel₁).symm.trans (mnemonic_of_selects h₂ hsel₂)
  exact row_eq_of_mnemonic_eq h₁ h₂ (Option.some.inj h)

/-- Settles O5, op by op: an op outside the six classes has an instruction for every word. -/
theorem unsupportedWordClasses : Obligations.UnsupportedWordClasses := by
  intro w
  have hlt : opField w < 16 := (word_fields w).2.1
  unfold decodeWord
  split
  case h_1 hop => simp [hop, decodeOp0_eq_none_iff]
  case h_9 hop => simp [hop, decodeOp8_eq_none_iff]
  case h_15 hop => simp [hop, decodeOpE_eq_none_iff]
  case h_16 hop => simp [hop, decodeOpF_eq_none_iff]
  case h_17 => exfalso; simp only [imp_false] at *; omega
  all_goals next hop => simp [hop]

/-- Settles O9: by the table's agreement with the dispatch the word does not decode, and the fetch has succeeded. -/
theorem unsupportedWordIsAnError : Obligations.UnsupportedWordIsAnError := by
  intro s w hl hf hrow
  have hd : decodeWord w = none := by
    rwa [rowOf_eq_map_decodeWord, Option.map_eq_none_iff] at hrow
  have hcore : coreStep s = .fault (.unsupportedOpcode w s.pc) := by
    simp [coreStep, hl, hf, hd, raise, finish]
  exact ⟨step_of_coreStep_fault hcore, perform_step_of_fault hcore⟩

/-- Settles O6, by running the decoder on each word. -/
theorem writtenOutWordsDecode : Obligations.WrittenOutWordsDecode := by
  unfold Obligations.WrittenOutWordsDecode
  decide
end

section
/-! PROOFS. The display of 40_display.md: the cells of a sprite read from memory are those its set bits cover (R101), they
are distinct (R103), and so DRW inverts each once and VF tells whether one of them was set; CLS clears them all (R100). -/

namespace Sys2Proof.Machine

/-- What encodes in a row decodes again, so the masked word is all a row asks of an instruction (R75). -/
theorem hasEncoding_of_masked {i : Instr} {fixed mask : Word} (h : encodeWord i &&& mask = fixed) :
    HasEncoding i fixed mask :=
  ⟨h, decodeWord_encodeWord i⟩

/-- The bytes of the n rows of the sprite at I (R101). -/
def spriteBytes (s : State) (n : Nat) : List Byte := (List.range n).map fun k => s.mem.read (s.i.toNat + k)

theorem exec_drw_inside {s : State} (x y : Reg) {n : Fin 16} (h : n.val = 0 ∨ s.i.toNat + n.val ≤ 4096) :
    exec (.drw x y n) s = .next (drawSprite s x y (spriteBytes s n.val)) := by
  rcases exec_drw_cases x y n s with ⟨-, hexec⟩ | ⟨h0, hout, -⟩
  · exact hexec
  · omega

theorem exec_drw_outside {s : State} (x y : Reg) {n : Fin 16} (h0 : n.val ≠ 0) (h : 4096 < s.i.toNat + n.val) :
    exec (.drw x y n) s = .fault (.addressOutOfRange (max s.i.toNat 4096) s.pc) := by
  rcases exec_drw_cases x y n s with ⟨hin, -⟩ | ⟨-, -, hexec⟩
  · omega
  · exact hexec

section
variable (s : State) (x y : Reg) (n : Nat)

/-- The cells the model's loop addresses are those the sprite covers (R101). -/
theorem mem_spriteCells_iff_covers (r : Fin 32) (c : Fin 64) :
    (r, c) ∈ spriteCells (s.getV x).toNat (s.getV y).toNat 0 (spriteBytes s n) ↔ SpriteCovers s x y n r c := by
  rw [mem_spriteCells]
  constructor
  · rintro ⟨row, b, hb, col, hcol, hbit, hr, hc⟩
    obtain ⟨hrow, rfl⟩ : row < n ∧ s.mem.read (s.i.toNat + row) = b := by
      simpa [spriteBytes, List.getElem?_eq_some_iff] using hb
    exact ⟨row, hrow, col, hcol, hbit, by rwa [Nat.zero_add] at hr, hc⟩
  · rintro ⟨row, hrow, col, hcol, hbit, hr, hc⟩
    exact ⟨row, _, by simp [spriteBytes, hrow], col, hcol, hbit, by rwa [Nat.zero_add], hc⟩

/-- DRW's frame: VF is the only register it writes, and of the rest only the display and pc change (R101). -/
theorem onlyDisplay_drawSprite (bs : List Byte) : OnlyDisplay [VF] s (drawSprite s x y bs) := by
  have hregs : SameRegsBut [VF] s (drawSprite s x y bs) := fun k hk =>
    getV_setV_other _ _ (List.ne_of_not_mem_cons hk)
  exact ⟨hregs, rfl, ⟨rfl, rfl⟩, ⟨rfl, rfl⟩, fun _ => rfl, by simp [SameModelFields]⟩

variable {n} (hn : n ≤ 32)
include hn

/-- A sprite's cells are distinct (R103), so drawing them has the effect of `drawCells_spec`. -/
theorem spriteBytes_cells_nodup :
    (spriteCells (s.getV x).toNat (s.getV y).toNat 0 (spriteBytes s n)).Nodup :=
  spriteCells_nodup _ _ _ _ (by simpa [spriteBytes] using hn)

open Classical in
theorem drawSprite_cell (r : Fin 32) (c : Fin 64) : (drawSprite s x y (spriteBytes s n)).fb.cell r c =
    if SpriteCovers s x y n r c then !s.fb.cell r c else s.fb.cell r c := by
  have hcell := (drawCells_spec _ s.fb false (spriteBytes_cells_nodup s x y hn)).1 r c
  by_cases h : SpriteCovers s x y n r c <;> simpa [mem_spriteCells_iff_covers, h] using hcell

/-- The collision bit of the loop is R103's: a covered cell was set before the step. -/
theorem drawCells_collision_iff :
    (drawCells (spriteCells (s.getV x).toNat (s.getV y).toNat 0 (spriteBytes s n)) s.fb false).2 = true ↔
      SpriteCollides s x y n := by
  rw [(drawCells_spec _ s.fb false (spriteBytes_cells_nodup s x y hn)).2]
  simp [SpriteCollides, mem_spriteCells_iff_covers]

open Classical in
theorem drawSprite_getV_VF :
    (drawSprite s x y (spriteBytes s n)).getV VF = if SpriteCollides s x y n then 1 else 0 := by
  simp [drawSprite, flagByte, drawCells_collision_iff s x y hn]

end

/-- CLS's frame: of the state only the display and pc change (R100). -/
theorem onlyDisplay_setDisplay_advance (s : State) (fb : Framebuffer) :
    OnlyDisplay [] s (s.setDisplay fb).advance :=
  ⟨fun _ _ => rfl, rfl, ⟨rfl, rfl⟩, ⟨rfl, rfl⟩, fun _ => rfl, by simp [SameModelFields]⟩

end Sys2Proof.Machine

open Sys2Proof Sys2Proof.Machine

/-- Settles O16: the loop's cells are the covered ones and distinct, so each is inverted once and the collision bit is
that of the cells before the step. -/
theorem drawSpriteXorsAndDetectsCollision : Obligations.DrawSpriteXorsAndDetectsCollision := by
  intro s x y n
  have hn : n.val ≤ 32 := by omega
  refine ⟨hasEncoding_of_masked (formXYN_masked 0xD x y n (by omega)), fun hin => ?_, exec_drw_outside x y⟩
  have hcell := drawSprite_cell s x y hn
  have hvf := drawSprite_getV_VF s x y hn
  exact ⟨drawSprite s x y (spriteBytes s n.val), exec_drw_inside x y hin,
    fun r c h => (hcell r c).trans (if_pos h), fun r c h => (hcell r c).trans (if_neg h),
    fun h => hvf.trans (if_pos h), fun h => hvf.trans (if_neg h),
    rfl, rfl, onlyDisplay_drawSprite s x y _⟩

/-- Settles O15: CLS is the display replaced by cleared cells, and the default advance of pc. -/
theorem clearScreen : Obligations.ClearScreen := by
  refine ⟨hasEncoding_of_masked (by decide), fun s => ⟨(s.setDisplay Framebuffer.cleared).advance, rfl, ?_⟩⟩
  exact ⟨cell_cleared, rfl, rfl, onlyDisplay_setDisplay_advance s _⟩

end

section
/-! PROOFS. The control transfers of 41_control.md: what a skip and a jump leave unchanged (R121 to R128), which targets
can be fetched from (R55), and what CALL and RET do to each entry of the stack (R28, R120, R122). -/

namespace Sys2Proof.Machine

variable {s t u : State}

/-! ### Jumps and skips (R121, R123 to R128) -/

theorem onlyRegs_setPc (s : State) (w : Word) : OnlyRegs [] s (s.setPc w) :=
  ⟨fun _ _ => rfl, rfl, ⟨rfl, rfl⟩, ⟨rfl, rfl⟩, ⟨rfl, rfl⟩, fun _ => rfl, by simp [SameModelFields]⟩

/-- A skip on a test is a skip on the condition that the test decides (R128). -/
theorem skipsIf_skipIf (s : State) {b : Bool} {c : Prop} (h : b = true ↔ c) : SkipsIf c s (s.skipIf b) :=
  ⟨fun hc => if_pos (h.mpr hc), fun hc => if_neg (mt h.mp hc), onlyRegs_setPc s _⟩

/-- A fetch fails from 0xFFF on, at the first of its two addresses that lies outside (R55, R218). -/
theorem fetch_eq_error_of_last_or_outside (h : 0xFFF ≤ s.pc.toNat) :
    fetch s = .error (.addressOutOfRange (max s.pc.toNat 0x1000) s.pc) := by
  rcases h.eq_or_lt with hlast | hout
  · rw [fetch_eq_error_of_last hlast.symm, ← hlast]
    rfl
  · rw [fetch_eq_error_of_outside hout, max_eq_left hout]

/-! ### The call stack (R28, R120, R122) -/

theorem exec_ret_empty (h : s.sp.val = 0) : exec .ret s = .fault (.stackUnderflow s.pc) := by
  rcases exec_ret_cases s with ⟨-, hexec⟩ | ⟨hne, -⟩
  · exact hexec
  · exact absurd h hne

theorem exec_ret_completes (h : s.sp.val ≠ 0) : ∃ t, exec .ret s = .next t := by
  rcases exec_ret_cases s with ⟨hz, -⟩ | ⟨_, _, hexec⟩
  · exact absurd hz h
  · exact ⟨_, hexec⟩

theorem exec_call_full {nnn : Addr} (h : s.sp.val = 16) :
    exec (.call nnn) s = .fault (.stackOverflow s.pc) := by
  rcases exec_call_cases nnn s with ⟨-, hexec⟩ | ⟨hlt, -⟩
  · exact hexec
  · exact absurd h hlt.ne

theorem exec_call_completes {nnn : Addr} (h : s.sp.val ≠ 16) : ∃ t, exec (.call nnn) s = .next t := by
  rcases exec_call_cases nnn s with ⟨hfull, -⟩ | ⟨_, hexec⟩
  · exact absurd hfull h
  · exact ⟨_, hexec⟩

theorem onlyStack_of_stack_sp_pc (s : State) (stack : Vector Word 16) (sp : Fin 17) (w : Word) :
    OnlyStack s ({ s with stack := stack, sp := sp }.setPc w) :=
  ⟨fun _ _ => rfl, rfl, ⟨rfl, rfl⟩, ⟨rfl, rfl⟩, fun _ => rfl, by simp [SameModelFields]⟩

theorem SameModelFields.trans (hst : SameModelFields s t) (htu : SameModelFields t u) :
    SameModelFields s u := by
  obtain ⟨hkeys, hrand, hschedule, hturn, hloaded, horder⟩ := htu
  simpa only [SameModelFields, hkeys, hrand, hschedule, hturn, hloaded, horder] using hst

theorem OnlyStack.trans (hst : OnlyStack s t) (htu : OnlyStack t u) : OnlyStack s u := by
  obtain ⟨hv, hi, ⟨hdt, htone⟩, ⟨hfb, hdirty⟩, hmem, hmodel⟩ := hst
  obtain ⟨hv', hi', ⟨hdt', htone'⟩, ⟨hfb', hdirty'⟩, hmem', hmodel'⟩ := htu
  exact ⟨fun k hk => (hv' k hk).trans (hv k hk), hi'.trans hi, ⟨hdt'.trans hdt, htone'.trans htone⟩,
    ⟨hfb'.trans hfb, hdirty'.trans hdirty⟩, fun a => (hmem' a).trans (hmem a), hmodel.trans hmodel'⟩

/-- The entry a RET pops in a state of a run is an address that an instruction was fetched from (R120). -/
theorem Inv.top_entry_le {w : Word} (hinv : Inv s) (h : s.sp.val ≠ 0)
    (hw : s.stack[s.sp.val - 1]? = some w) : w.toNat ≤ 0xFFE := by
  obtain ⟨-, -, hlive⟩ := hinv
  obtain ⟨hlt, rfl⟩ := Vector.getElem?_eq_some_iff.mp hw
  exact hlive ⟨s.sp.val - 1, hlt⟩ (Nat.sub_one_lt h)

namespace Effect

variable {nnn : Addr}

/-- A pop leaves the popped entry's content in place (R28). -/
theorem stack_of_ret (h : Effect s .ret t) : t.stack = s.stack := by
  cases h
  rfl

theorem sp_of_ret (h : Effect s .ret t) : t.sp.val = s.sp.val - 1 := by
  cases h
  rfl

theorem onlyStack_of_ret (h : Effect s .ret t) : OnlyStack s t := by
  cases h
  exact onlyStack_of_stack_sp_pc ..

theorem sp_of_call (h : Effect s (.call nnn) t) : t.sp.val = s.sp.val + 1 := by
  cases h
  rfl

/-- The pushed value is the CALL's own address (R122). -/
theorem pushed_of_call (h : Effect s (.call nnn) t) : t.stack[s.sp.val]? = some s.pc := by
  cases h with
  | call _ hlt => simp [hlt]

theorem stack_of_call_other (h : Effect s (.call nnn) t) {k : Nat} (hk : k ≠ s.sp.val) :
    t.stack[k]? = s.stack[k]? := by
  cases h with
  | call _ hlt => exact Vector.getElem?_set_ne hlt hk.symm

theorem onlyStack_of_call (h : Effect s (.call nnn) t) : OnlyStack s t := by
  cases h
  exact onlyStack_of_stack_sp_pc ..

end Effect

end Sys2Proof.Machine

open Sys2Proof Sys2Proof.Machine

/-- Settles O23: the CALL leaves the stack non-empty with its own address on top, whatever pc is, so the RET completes
and pops that address; the entries below are the ones neither instruction touches. -/
theorem returnUndoesCall : Obligations.ReturnUndoesCall := by
  intro s t nnn w h
  have hcall : Effect s (.call nnn) t := exec_next h
  have hsp : (t.setPc w).sp.val = s.sp.val + 1 := hcall.sp_of_call
  obtain ⟨u, hu⟩ := exec_ret_completes (s := t.setPc w) (hsp ▸ Nat.succ_ne_zero _)
  have hret : Effect (t.setPc w) .ret u := exec_next hu
  have hstack : u.stack = t.stack := hret.stack_of_ret
  have hframe : OnlyStack s (t.setPc w) := hcall.onlyStack_of_call
  refine ⟨u, hu, ?_, ?_, fun k hk => ?_, hframe.trans hret.onlyStack_of_ret⟩
  · obtain ⟨v, hv, hpc⟩ := hret.pc_of_ret
    rw [hsp, Nat.add_sub_cancel, setPc_stack, hcall.pushed_of_call] at hv
    rw [hpc, Option.some.inj hv]
  · exact Fin.ext (by rw [hret.sp_of_ret, hsp, Nat.add_sub_cancel])
  · rw [hstack, hcall.stack_of_call_other hk.ne]

/-- Settles O18: the two answers of a pop; the invariant bounds the popped entry, and so the sum does not wrap. -/
theorem returnPopsAndAddsTwo : Obligations.ReturnPopsAndAddsTwo := by
  refine ⟨hasEncoding_of_masked (by decide), fun s => ⟨exec_ret_empty, fun h0 => ?_⟩⟩
  obtain ⟨t, ht⟩ := exec_ret_completes h0
  have he : Effect s .ret t := exec_next ht
  obtain ⟨w, hw, hpc⟩ := he.pc_of_ret
  refine ⟨t, w, ht, hw, hpc, he.sp_of_ret, he.stack_of_ret,
    he.onlyStack_of_ret, fun hinv => ?_⟩
  have hle := hinv.top_entry_le h0 hw
  exact ⟨hle, by rw [hpc]; bv_omega⟩

/-- Settles O19: neither target wraps in 16 bits, and the next fetch's outcome depends on where it lies alone. -/
theorem jumpsSetPc : Obligations.JumpsSetPc := by
  intro s nnn
  have hjp : (s.setPc (wideAddr nnn)).pc.toNat = nnn.toNat := wideAddr_toNat nnn
  have hjpV0 : (s.setPc (offsetTarget s nnn)).pc.toNat = nnn.toNat + (s.getV 0).toNat :=
    offsetTarget_toNat s nnn
  refine ⟨hasEncoding_of_masked (formNNN_masked 0x1 nnn (by decide)),
    hasEncoding_of_masked (formNNN_masked 0xB nnn (by decide)),
    ⟨_, rfl, hjp, onlyRegs_setPc s _, fun h => ⟨_, fetch_eq_ok ?_⟩, fun h => ?_⟩,
    ⟨_, rfl, hjpV0, onlyRegs_setPc s _, fun h => ⟨_, fetch_eq_ok ?_⟩, fun h => ?_⟩⟩
  · omega
  · exact fetch_eq_error_of_last (hjp.trans h)
  · omega
  · exact fetch_eq_error_of_last_or_outside (hjpV0.symm ▸ h)

/-- Settles O20: the two answers of a push, and what the completed CALL did to each entry. -/
theorem callPushesItsOwnAddress : Obligations.CallPushesItsOwnAddress := by
  intro s nnn
  refine ⟨hasEncoding_of_masked (formNNN_masked 0x2 nnn (by decide)), exec_call_full, fun hfull => ?_⟩
  obtain ⟨t, ht⟩ := exec_call_completes (nnn := nnn) hfull
  have he : Effect s (.call nnn) t := exec_next ht
  exact ⟨t, ht, he.pushed_of_call, fun k hk => he.stack_of_call_other hk, he.sp_of_call,
    he.pc_of_jp_or_call (.inr rfl), he.onlyStack_of_call⟩

/-- Settles O21: both are skips on a test of V[x] against the byte. -/
theorem immediateSkips : Obligations.ImmediateSkips := fun s x nn =>
  ⟨hasEncoding_of_masked (formXNN_masked 0x3 x nn (by decide)),
    hasEncoding_of_masked (formXNN_masked 0x4 x nn (by decide)),
    ⟨_, rfl, skipsIf_skipIf s beq_iff_eq⟩, ⟨_, rfl, skipsIf_skipIf s bne_iff_ne⟩⟩

/-- Settles O22: both are skips on a test of V[x] against V[y]. -/
theorem registerSkips : Obligations.RegisterSkips := fun s x y =>
  ⟨hasEncoding_of_masked (formXYN_masked_n 0x5 x y 0 (by decide)),
    hasEncoding_of_masked (formXYN_masked_n 0x9 x y 0 (by decide)),
    ⟨_, rfl, skipsIf_skipIf s beq_iff_eq⟩, ⟨_, rfl, skipsIf_skipIf s bne_iff_ne⟩⟩

end

section
/-! PROOFS. Register loads and the ALU of 42_alu.md: the bytes its operations compute and the flags with them, as numbers
(R147 to R151, R153), and that a write of a result, with or without a flag, is the whole effect (R142). -/

namespace Sys2Proof.Machine

/-! ### Results and flags as numbers -/

theorem flagByte_decide_toNat (p : Prop) [Decidable p] : (flagByte (decide p)).toNat = if p then 1 else 0 := by
  by_cases h : p <;> simp [flagByte, h]

/-- A flag taken from a bit is that bit as a number. -/
theorem flagByte_toNat (b : Bool) : (flagByte b).toNat = b.toNat := by
  cases b <;> rfl

theorem carryFlag_toNat (a b : Byte) : (carryFlag a b).toNat = if a.toNat + b.toNat > 255 then 1 else 0 :=
  flagByte_decide_toNat _

theorem subFlag_toNat (a b : Byte) : (subFlag a b).toNat = if a.toNat > b.toNat then 1 else 0 :=
  flagByte_decide_toNat _

theorem subnFlag_toNat (a b : Byte) : (subnFlag a b).toNat = if b.toNat ≥ a.toNat then 1 else 0 :=
  flagByte_decide_toNat _

/-- SHR's flag is the remainder of the halving (R149). -/
theorem shrFlag_toNat (a : Byte) : (shrFlag a).toNat = a.toNat % 2 := by
  rw [shrFlag, flagByte_toNat, BitVec.getLsbD, Nat.toNat_testBit, pow_zero, Nat.div_one]

/-- SHL's flag is what the doubling carries out of the byte (R151). -/
theorem shlFlag_toNat (a : Byte) : (shlFlag a).toNat = a.toNat / 128 := by
  rw [shlFlag, flagByte_toNat, BitVec.getLsbD, Nat.toNat_testBit]
  omega

/-- The wrapping difference is the exact one mod 256 (R153). -/
theorem byte_sub_toNat (a b : Byte) : (a - b).toNat = (((a.toNat : Int) - b.toNat) % 256).toNat := by
  rw [BitVec.toNat_sub]
  omega

theorem byte_shiftRight_one_toNat (a : Byte) : (a >>> 1).toNat = a.toNat / 2 := by
  rw [BitVec.toNat_ushiftRight, Nat.shiftRight_one]

theorem byte_shiftLeft_one_toNat (a : Byte) : (a <<< 1).toNat = a.toNat * 2 % 256 := by
  rw [BitVec.toNat_shiftLeft, Nat.shiftLeft_eq, pow_one]

/-! ### The effect of writing a result -/

variable {s t : State} {x : Reg} {r f : Byte} {m n : Nat}

/-- Where only registers differ, the frame is about registers alone, and the advance of pc keeps it (R25). -/
theorem onlyRegs_advance {ds : List Reg} (ht : t = { s with v := t.v }) (hregs : SameRegsBut ds s t) :
    OnlyRegs ds s t.advance := by
  rw [ht]
  exact ⟨hregs, rfl, ⟨rfl, rfl⟩, ⟨rfl, rfl⟩, ⟨rfl, rfl⟩, fun _ => rfl, by simp [SameModelFields]⟩

theorem writesReg_setV_advance (hr : r.toNat = m) : WritesReg x m s (s.setV x r).advance := by
  have hregs : SameRegsBut [x] s (s.setV x r) := fun k hk =>
    getV_setV_other s r (List.ne_of_not_mem_cons hk)
  exact ⟨by rwa [advance_getV, getV_setV_self], rfl, onlyRegs_advance rfl hregs⟩

/-- `WriteResultAndFlag` writes both bytes, and where they meet in VF the later write stands (R142). -/
theorem writesRegAndFlag_writeResultAndFlag_advance (hr : r.toNat = m) (hf : f.toNat = n) :
    WritesRegAndFlag x m n s (writeResultAndFlag s x r f).advance := by
  have hregs : SameRegsBut [x, VF] s (writeResultAndFlag s x r f) := fun k hk => by
    obtain ⟨hx, hvf⟩ : k ≠ x ∧ k ≠ VF := by simpa using hk
    simp [writeResultAndFlag_getV, hx, hvf]
  refine ⟨fun hx => ⟨?result, ?flag⟩, fun hx ho => ?flagLast, fun hx ho => ?resultLast,
    congrArg (· + 2) (writeResultAndFlag_pc s x r f), onlyRegs_advance (writeResultAndFlag_eq s x r f) hregs⟩
  case result => simp [writeResultAndFlag_getV, hx, hr]
  case flag => simp [writeResultAndFlag_getV, Ne.symm hx, hf]
  case flagLast => simp [writeResultAndFlag_getV, ho, hf]
  case resultLast => simp [writeResultAndFlag_getV, hx, ho, hr]

end Sys2Proof.Machine

open Sys2Proof Sys2Proof.Machine

/-- Settles O28: the sum and the carry are written in the order of R142. -/
theorem addRegistersWithCarry : Obligations.AddRegistersWithCarry := fun s x y =>
  ⟨hasEncoding_of_masked (formXYN_masked_n 0x8 x y 0x4 (by decide)),
    ⟨_, rfl, writesRegAndFlag_writeResultAndFlag_advance (BitVec.toNat_add ..) (carryFlag_toNat ..)⟩⟩

/-- Settles O29: the two differences, with the strict and the non-strict flag. -/
theorem subtractions : Obligations.Subtractions := fun s x y =>
  ⟨hasEncoding_of_masked (formXYN_masked_n 0x8 x y 0x5 (by decide)),
    hasEncoding_of_masked (formXYN_masked_n 0x8 x y 0x7 (by decide)),
    ⟨_, rfl, writesRegAndFlag_writeResultAndFlag_advance (byte_sub_toNat ..) (subFlag_toNat ..)⟩,
    ⟨_, rfl, writesRegAndFlag_writeResultAndFlag_advance (byte_sub_toNat ..) (subnFlag_toNat ..)⟩⟩

/-- Settles O30: V[x] halved or doubled, with the bit that is lost in VF; y is in the encoding only. -/
theorem shifts : Obligations.Shifts := fun s x y =>
  ⟨hasEncoding_of_masked (formXYN_masked_n 0x8 x y 0x6 (by decide)),
    hasEncoding_of_masked (formXYN_masked_n 0x8 x y 0xE (by decide)),
    ⟨_, rfl, writesRegAndFlag_writeResultAndFlag_advance (byte_shiftRight_one_toNat _) (shrFlag_toNat _)⟩,
    ⟨_, rfl, writesRegAndFlag_writeResultAndFlag_advance (byte_shiftLeft_one_toNat _) (shlFlag_toNat _)⟩⟩

/-- Settles O26: both are plain writes of V[x]. -/
theorem immediateLoadAndAdd : Obligations.ImmediateLoadAndAdd := fun s x nn =>
  ⟨hasEncoding_of_masked (formXNN_masked 0x6 x nn (by decide)),
    hasEncoding_of_masked (formXNN_masked 0x7 x nn (by decide)),
    ⟨_, rfl, writesReg_setV_advance rfl⟩, ⟨_, rfl, writesReg_setV_advance (BitVec.toNat_add ..)⟩⟩

/-- Settles O27: the four are plain writes of V[x], and the logic is that of the bytes as numbers. -/
theorem registerAssignAndLogic : Obligations.RegisterAssignAndLogic := fun s x y =>
  ⟨hasEncoding_of_masked (formXYN_masked_n 0x8 x y 0x0 (by decide)),
    hasEncoding_of_masked (formXYN_masked_n 0x8 x y 0x1 (by decide)),
    hasEncoding_of_masked (formXYN_masked_n 0x8 x y 0x2 (by decide)),
    hasEncoding_of_masked (formXYN_masked_n 0x8 x y 0x3 (by decide)),
    ⟨_, rfl, writesReg_setV_advance rfl⟩, ⟨_, rfl, writesReg_setV_advance (BitVec.toNat_or ..)⟩,
    ⟨_, rfl, writesReg_setV_advance (BitVec.toNat_and ..)⟩,
    ⟨_, rfl, writesReg_setV_advance (BitVec.toNat_xor ..)⟩⟩

/-- Settles O31: a plain write of the masked random byte, which is a field of the state and so any byte. -/
theorem randomMasked : Obligations.RandomMasked := fun s x nn =>
  ⟨hasEncoding_of_masked (formXNN_masked 0xC x nn (by decide)),
    ⟨_, rfl, writesReg_setV_advance (BitVec.toNat_and ..)⟩⟩

end

section
/-! PROOFS. The index register and the memory transfers of 43_index_memory.md: what a write of I and a run of stored bytes
leave unchanged (R170 to R174), the digits stored (R173), and what a load makes of V and of I (R175). -/

namespace Sys2Proof.Machine

/-- An instruction that answers one thing where `p` holds and another where `q` does answers each under its own
condition, as the two exclude each other. -/
theorem imp_and_imp_of_cases {p q a b : Prop} (hcases : p ∧ a ∨ q ∧ b) (hpq : p → ¬ q) :
    (p → a) ∧ (q → b) := by
  rcases hcases with ⟨hp, ha⟩ | ⟨hq, hb⟩
  · exact ⟨fun _ => ha, fun hq => absurd hq (hpq hp)⟩
  · exact ⟨fun hp => absurd hq (hpq hp), fun _ => hb⟩

/-! ### Writes of I and of memory (R170 to R174) -/

theorem onlyIndex_setI_advance (s : State) (w : Word) : OnlyIndex s (s.setI w).advance :=
  ⟨fun _ _ => rfl, ⟨rfl, rfl⟩, ⟨rfl, rfl⟩, ⟨rfl, rfl⟩, fun _ => rfl, by simp [SameModelFields]⟩

/-- A run of stored bytes changes those bytes and pc (R54). -/
theorem onlyBytes_writeAll_advance (s : State) (a : Nat) {bs : List Byte} {n : Nat} (hn : bs.length = n) :
    OnlyBytes a n s (s.setMem (s.mem.writeAll a bs)).advance := by
  have hmem : SameMemoryOutside a n s (s.setMem (s.mem.writeAll a bs)).advance := fun b hb =>
    Memory.read_writeAll_outside s.mem a bs b (by rwa [hn])
  exact ⟨fun _ _ => rfl, rfl, ⟨rfl, rfl⟩, ⟨rfl, rfl⟩, ⟨rfl, rfl⟩, hmem, by simp [SameModelFields]⟩

/-- A number below 256 is read back where its byte was stored. -/
theorem Memory.read_writeAll_toNat (m : Memory) (a : Nat) {bs : List Byte} {k d : Nat}
    (h : bs[k]? = some (BitVec.ofNat 8 d)) (hd : d < 256) : ((m.writeAll a bs).read (a + k)).toNat = d := by
  rw [Memory.read_writeAll_inside m a bs k _ h, BitVec.toNat_ofNat, Nat.mod_eq_of_lt hd]

/-! ### The load (R175) -/

/-- A load writes each register that it has a byte for. -/
theorem loadRange_getV_of_getElem? (s : State) (x : Reg) {bs : List Byte} {k : Reg} {b : Byte}
    (h : bs[k.val]? = some b) : (loadRange s x bs).getV k = b := by
  simp [State.getV, loadRegs_getElem, h]

namespace Effect

variable {s t : State} {x k : Reg}

theorem getV_of_load (h : Effect s (.load x) t) (hk : k ≤ x) :
    t.getV k = s.mem.read (s.i.toNat + k.val) := by
  cases h with
  | load =>
    have hlt : k.val < x.val + 1 := Nat.lt_succ_of_le hk
    exact loadRange_getV_of_getElem? s x (by simp [hlt])

theorem getV_above_load (h : Effect s (.load x) t) (hk : x < k) : t.getV k = s.getV k := by
  cases h with
  | load => exact loadRange_getV_above x (by simpa using hk)

/-- A load that completes has advanced I past the last byte it read, and that byte has an address: no sum wraps. -/
theorem i_toNat_of_load (h : Effect s (.load x) t) :
    t.i.toNat = s.i.toNat + x.val + 1 ∧ t.i.toNat ≤ 0x1000 := by
  cases h with
  | load _ hin =>
    simp only [loadRange_i, rangeCount, BitVec.toNat_add, BitVec.toNat_ofNat]
    omega

/-- A load's frame: of the state only V, I and pc change. -/
theorem frame_of_load (h : Effect s (.load x) t) : t.pc = s.pc + 2 ∧ SameStack s t ∧ SameTimers s t ∧
    SameDisplay s t ∧ SameMemory s t ∧ SameModelFields s t := by
  cases h with
  | load => simp [SameStack, SameTimers, SameDisplay, SameMemory, SameModelFields]

end Effect

end Sys2Proof.Machine

open Sys2Proof Sys2Proof.Machine

/-- Settles O34: the three digits are bytes, and they are what the store writes from I on. -/
theorem storeBcd : Obligations.StoreBcd := by
  intro s x
  obtain ⟨hin, hout⟩ := imp_and_imp_of_cases (exec_ldB_cases x s) Nat.not_lt.mpr
  refine ⟨hasEncoding_of_masked (formXNN_masked_nn 0xF x 0x33 (by decide)),
    fun h => ⟨_, hin h, ?hundreds, ?tens, ?units, rfl, onlyBytes_writeAll_advance s _ rfl⟩, hout⟩
  case hundreds => exact Memory.read_writeAll_toNat s.mem _ (k := 0) rfl (by omega)
  case tens => exact Memory.read_writeAll_toNat s.mem _ (k := 1) rfl (by omega)
  case units => exact Memory.read_writeAll_toNat s.mem _ (k := 2) rfl (by omega)

/-- Settles O35: the bytes that the store writes from I on are those of V0 to Vx. -/
theorem registerDump : Obligations.RegisterDump := by
  intro s x
  obtain ⟨hin, hout⟩ := imp_and_imp_of_cases (exec_dump_cases x s) Nat.not_le.mpr
  exact ⟨hasEncoding_of_masked (formXNN_masked_nn 0xF x 0x55 (by decide)),
    fun h => ⟨_, hin h, fun k hk => (Effect.dump x h).read_dump hk, rfl,
      onlyBytes_writeAll_advance s _ (rangeBytes_length s x)⟩, hout⟩

/-- Settles O36: the load's effect on V and on I, where the mod 65536 has nothing to reduce. -/
theorem registerLoad : Obligations.RegisterLoad := by
  intro s x
  obtain ⟨hin, hout⟩ := imp_and_imp_of_cases (exec_load_cases x s) Nat.not_le.mpr
  refine ⟨hasEncoding_of_masked (formXNN_masked_nn 0xF x 0x65 (by decide)), fun h => ?_, hout⟩
  have he : Effect s (.load x) _ := .load x h
  obtain ⟨hi, hbound⟩ := he.i_toNat_of_load
  refine ⟨_, hin h, fun k hk => he.getV_of_load hk, fun k hk => he.getV_above_load hk, ?_, hbound, he.frame_of_load⟩
  rw [hi, Nat.mod_eq_of_lt (by omega)]

/-- Settles O37: the load reads the addresses that the dump wrote, all of them inside the address space. -/
theorem dumpThenLoadRestores : Obligations.DumpThenLoadRestores := by
  intro s t u x h hmem hi
  have hdump : Effect s (.dump x) t := exec_next h
  have hinside : u.i.toNat + x.val < 4096 := hi ▸ hdump.dump_inside
  have hload := Effect.load x hinside
  refine ⟨_, (imp_and_imp_of_cases (exec_load_cases x u) Nat.not_le.mpr).1 hinside, fun k hk => ?_, ?_⟩
  · rw [hload.getV_of_load hk, hmem, hi, hdump.read_dump hk]
  · rw [hload.i_toNat_of_load.1, hi]

/-- Settles O33: each writes I and advances pc; the address and the glyph's address do not wrap, the sum is mod 65536. -/
theorem indexLoadsAndAdd : Obligations.IndexLoadsAndAdd := by
  intro s x nnn
  have hsum : (s.i + wideByte (s.getV x)).toNat = (s.i.toNat + (s.getV x).toNat) % 65536 := by
    rw [BitVec.toNat_add, wideByte_toNat]
  exact ⟨hasEncoding_of_masked (formNNN_masked 0xA nnn (by decide)),
    hasEncoding_of_masked (formXNN_masked_nn 0xF x 0x1E (by decide)),
    hasEncoding_of_masked (formXNN_masked_nn 0xF x 0x29 (by decide)),
    ⟨_, rfl, wideAddr_toNat nnn, rfl, onlyIndex_setI_advance s _⟩,
    ⟨_, rfl, hsum, rfl, onlyIndex_setI_advance s _⟩,
    ⟨_, rfl, glyphAddr_toNat _, rfl, onlyIndex_setI_advance s _⟩⟩

end

section
/-! PROOFS. The keypad and the timers of 44_keypad_timer.md: which key is the lowest pressed one (R192), and what a write
of a timer leaves unchanged (R194, R195). -/

namespace Sys2Proof.Machine

/-! ### The lowest pressed key (R192) -/

/-- A snapshot has one lowest pressed key at most, so any key that is pressed with no lower one is it. -/
theorem lowestKey_eq_some_of_lowest {keys : BitVec 16} {k : Fin 16} (hk : keys.getLsbD k.val = true)
    (hlow : ∀ j : Fin 16, j < k → keys.getLsbD j.val = false) : lowestKey keys = some k := by
  cases h : lowestKey keys with
  | none => cases hk.symm.trans (lowestKey_none h k)
  | some j =>
    obtain ⟨hj, hlow'⟩ := lowestKey_some h
    rcases lt_trichotomy j k with hlt | rfl | hgt
    · cases hj.symm.trans (hlow j hlt)
    · rfl
    · cases hk.symm.trans (hlow' k hgt)

theorem lowestKey_eq_none_of_none_pressed {keys : BitVec 16}
    (h : ∀ k : Fin 16, keys.getLsbD k.val = false) : lowestKey keys = none :=
  lowestKey_eq_none_iff.mpr (BitVec.eq_of_getLsbD_eq fun k hk => by simpa using h ⟨k, hk⟩)

theorem exec_ldVxK_of_some {s : State} (x : Reg) {k : Fin 16} (h : lowestKey s.keys = some k) :
    exec (.ldVxK x) s = .next (s.setV x (BitVec.ofNat 8 k.val)).advance := by
  rcases exec_ldVxK_cases x s with ⟨j, hj, hexec⟩ | ⟨hnone, -⟩
  · rwa [Option.some.inj (h.symm.trans hj)]
  · cases h.symm.trans hnone

theorem exec_ldVxK_of_none {s : State} (x : Reg) (h : lowestKey s.keys = none) :
    exec (.ldVxK x) s = .next s := by
  rcases exec_ldVxK_cases x s with ⟨k, hk, -⟩ | ⟨-, hexec⟩
  · cases h.symm.trans hk
  · exact hexec

/-- A key's number fits in a byte (R192). -/
theorem keyByte_toNat (k : Fin 16) : (BitVec.ofNat 8 k.val).toNat = k.val := by
  rw [BitVec.toNat_ofNat, Nat.mod_eq_of_lt (by omega)]

/-! ### The timers (R193 to R195) -/

theorem toneActive_iff (s : State) : toneActive s = true ↔ s.st ≠ 0 := bne_iff_ne

/-- Where only the timers differ, every other element but pc is as before, and the advance of pc keeps that (R25). -/
theorem frame_of_timers_advance {s t : State} (ht : t = { s with dt := t.dt, st := t.st }) :
    SameRegsBut [] s t.advance ∧ t.advance.i = s.i ∧ SameStack s t.advance ∧
      SameDisplay s t.advance ∧ SameMemory s t.advance ∧ SameModelFields s t.advance := by
  rw [ht]
  exact ⟨fun _ _ => rfl, rfl, ⟨rfl, rfl⟩, ⟨rfl, rfl⟩, fun _ => rfl, by simp [SameModelFields]⟩

end Sys2Proof.Machine

open Sys2Proof Sys2Proof.Machine

/-- Settles O42: the key of the statement is the one the search finds, and its number is a byte; a search that finds
no key leaves the state. -/
theorem waitForKey : Obligations.WaitForKey := fun s x =>
  ⟨hasEncoding_of_masked (formXNN_masked_nn 0xF x 0x0A (by decide)),
    fun k hk hlow => ⟨_, exec_ldVxK_of_some x (lowestKey_eq_some_of_lowest hk hlow),
      writesReg_setV_advance (keyByte_toNat k)⟩,
    fun h => exec_ldVxK_of_none x (lowestKey_eq_none_of_none_pressed h)⟩

/-- Settles O41: both are skips on the level of the key V[x] or on its negation, or both raise the same error. -/
theorem keySkips : Obligations.KeySkips := by
  intro s x
  obtain ⟨hskp, hskpOut⟩ := imp_and_imp_of_cases (exec_skp_cases x s) Nat.not_le.mpr
  obtain ⟨hsknp, hsknpOut⟩ := imp_and_imp_of_cases (exec_sknp_cases x s) Nat.not_le.mpr
  exact ⟨hasEncoding_of_masked (formXNN_masked_nn 0xE x 0x9E (by decide)),
    hasEncoding_of_masked (formXNN_masked_nn 0xE x 0xA1 (by decide)),
    fun h => ⟨⟨_, hskp h, skipsIf_skipIf s Iff.rfl⟩, ⟨_, hsknp h, skipsIf_skipIf s (Bool.not_eq_true' _).to_iff⟩⟩,
    fun h => ⟨hskpOut h, hsknpOut h⟩⟩

/-- Settles O43: FX07 is a plain write of V[x], and FX15 and FX18 write one timer each. -/
theorem timerRegisterMoves : Obligations.TimerRegisterMoves := by
  intro s x
  obtain ⟨hregs, hi, hstack, hdisplay, hmem, hmodel⟩ :=
    frame_of_timers_advance (s := s) (t := s.setSt (s.getV x)) rfl
  exact ⟨hasEncoding_of_masked (formXNN_masked_nn 0xF x 0x07 (by decide)),
    hasEncoding_of_masked (formXNN_masked_nn 0xF x 0x15 (by decide)),
    hasEncoding_of_masked (formXNN_masked_nn 0xF x 0x18 (by decide)),
    ⟨_, rfl, writesReg_setV_advance rfl⟩,
    ⟨_, rfl, rfl, rfl, rfl, frame_of_timers_advance rfl⟩,
    ⟨_, rfl, rfl, rfl, rfl, hregs, hi, hstack, hdisplay, hmem, hmodel, toneActive_iff _⟩⟩

end

section
/-! PROOFS. The errors and the host interface of 60_exceptions.md: what each instruction can raise (R210 to R218), what an
operation of the host can make of the state (R225), so that it keeps the invariant and any error (R219, R229), and that the
ticks, clears and reads of any interleaving add up to one turn of the host (R223, R226, log 1). -/

namespace Sys2Proof.Machine

variable {s t : State} {f : Fault}

/-! ### What an instruction raises (R210, R218) -/

/-- The error an instruction raises, and the condition under which it does: the counterpart of `Effect`. -/
inductive Raises (s : State) : Instr → Fault → Prop
  | ret (h : s.sp.val = 0) : Raises s .ret (.stackUnderflow s.pc)
  | call (nnn : Addr) (h : s.sp.val = 16) : Raises s (.call nnn) (.stackOverflow s.pc)
  | drw (x y : Reg) (n : Fin 16) (h : 4096 < s.i.toNat + n.val) :
      Raises s (.drw x y n) (.addressOutOfRange (max s.i.toNat 4096) s.pc)
  | skp (x : Reg) (h : 16 ≤ (s.getV x).toNat) : Raises s (.skp x) (.keyIndexOutOfRange (s.getV x) s.pc)
  | sknp (x : Reg) (h : 16 ≤ (s.getV x).toNat) : Raises s (.sknp x) (.keyIndexOutOfRange (s.getV x) s.pc)
  | ldB (x : Reg) (h : 4096 < s.i.toNat + 3) :
      Raises s (.ldB x) (.addressOutOfRange (max s.i.toNat 4096) s.pc)
  | dump (x : Reg) (h : 4096 ≤ s.i.toNat + x.val) :
      Raises s (.dump x) (.addressOutOfRange (max s.i.toNat 4096) s.pc)
  | load (x : Reg) (h : 4096 ≤ s.i.toNat + x.val) :
      Raises s (.load x) (.addressOutOfRange (max s.i.toNat 4096) s.pc)

/-- An instruction completes or raises its error: there is no third answer. -/
theorem exec_next_or_raises (i : Instr) (s : State) :
    (∃ t, exec i s = .next t) ∨ ∃ f, exec i s = .fault f ∧ Raises s i f := by
  cases i
  case ret =>
    rcases exec_ret_cases s with ⟨h, hexec⟩ | ⟨_, _, hexec⟩
    · exact .inr ⟨_, hexec, .ret h⟩
    · exact .inl ⟨_, hexec⟩
  case call nnn =>
    rcases exec_call_cases nnn s with ⟨h, hexec⟩ | ⟨_, hexec⟩
    · exact .inr ⟨_, hexec, .call nnn h⟩
    · exact .inl ⟨_, hexec⟩
  case drw x y n =>
    rcases exec_drw_cases x y n s with ⟨_, hexec⟩ | ⟨_, h, hexec⟩
    · exact .inl ⟨_, hexec⟩
    · exact .inr ⟨_, hexec, .drw x y n h⟩
  case skp x => exact (exec_skp_cases x s).imp (fun h => ⟨_, h.2⟩) fun h => ⟨_, h.2, .skp x h.1⟩
  case sknp x => exact (exec_sknp_cases x s).imp (fun h => ⟨_, h.2⟩) fun h => ⟨_, h.2, .sknp x h.1⟩
  case ldB x => exact (exec_ldB_cases x s).imp (fun h => ⟨_, h.2⟩) fun h => ⟨_, h.2, .ldB x h.1⟩
  case dump x => exact (exec_dump_cases x s).imp (fun h => ⟨_, h.2⟩) fun h => ⟨_, h.2, .dump x h.1⟩
  case load x => exact (exec_load_cases x s).imp (fun h => ⟨_, h.2⟩) fun h => ⟨_, h.2, .load x h.1⟩
  all_goals exact .inl ⟨_, rfl⟩

theorem exec_ne_refused (i : Instr) (s : State) (r : Refusal) : exec i s ≠ .refused r := by
  rcases exec_next_or_raises i s with ⟨t, h⟩ | ⟨f, h, -⟩ <;> rw [h] <;> exact nofun

/-- The inversion of `exec` on its errors. -/
theorem exec_fault {i : Instr} (h : exec i s = .fault f) : Raises s i f := by
  rcases exec_next_or_raises i s with ⟨t, h'⟩ | ⟨f', h', hraises⟩ <;> rw [h'] at h <;> cases h
  exact hraises

/-! ### What an operation of the host leaves (R225) -/

/-- An operation leaves the state as it was, is a tick or a clear, or is a load or a step that completed. -/
theorem perform_cases (op : HostOp) (s : State) :
    (perform op s).1 = s ∨ (perform op s).1 = tickTimers s ∨ (perform op s).1 = clearDirty s ∨
      (∃ rom, loadProgram rom s = .next (perform op s).1) ∨
      ∃ keys rand, stepCall keys rand s = .next (perform op s).1 := by
  cases op with
  | loadProgram rom =>
    cases h : loadProgram rom s with
    | next t => exact .inr (.inr (.inr (.inl ⟨rom, by simp [perform, settle, h]⟩)))
    | fault | refused => exact .inl (by simp [perform, settle, h])
  | step keys rand =>
    cases h : stepCall keys rand s with
    | next t => exact .inr (.inr (.inr (.inr ⟨keys, rand, by simp [perform, settle, h]⟩)))
    | fault | refused => exact .inl (by simp [perform, settle, h])
  | tickTimers => exact .inr (.inl rfl)
  | clearDirty => exact .inr (.inr (.inl rfl))
  | readFramebuffer | isDirty | readTone => exact .inl rfl

/-- What every operation keeps, every interleaving keeps (R229). -/
theorem performAll_keeps {P : State → Prop} (hop : ∀ op s, P s → P (perform op s).1) (ops : List HostOp)
    (h : P s) : P (performAll ops s) := by
  induction ops generalizing s with
  | nil => exact h
  | cons op ops ih => exact ih (hop op s h)

/-- A load that completes was the first, fits the program region, and has written it (R241, R242). -/
theorem loadProgram_next {rom : List Byte} (h : loadProgram rom s = .next t) :
    s.loaded = false ∧ rom.length ≤ 3584 ∧ t = { s with mem := s.mem.writeAll 0x200 rom, loaded := true } := by
  rcases loadProgram_cases rom s with ⟨_, heq⟩ | ⟨hl, hlen, heq⟩ | ⟨_, _, heq⟩ <;> rw [heq] at h <;> cases h
  exact ⟨hl, hlen, rfl⟩

/-! ### The invariant -/

/-- A ROM of at most 3584 bytes from 0x200 on ends inside the address space, so memory stays canonical (R58). -/
theorem loadProgram_keeps_inv {rom : List Byte} (h : loadProgram rom s = .next t) (hinv : Inv s) : Inv t := by
  obtain ⟨-, hlen, rfl⟩ := loadProgram_next h
  obtain ⟨hmem, hpc, hstack⟩ := hinv
  exact ⟨Memory.wf_writeAll hmem _ _ (Nat.add_le_add_left hlen 0x200), hpc, hstack⟩

theorem perform_keeps_inv (op : HostOp) (s : State) (hinv : Inv s) : Inv (perform op s).1 := by
  rcases perform_cases op s with h | h | h | ⟨rom, h⟩ | ⟨keys, rand, h⟩
  · rwa [h]
  · rw [h]
    exact hinv
  · rw [h]
    exact hinv
  · exact loadProgram_keeps_inv h hinv
  · exact coreStep_keeps_inv (s := { s with keys := keys, rand := rand }) h hinv

/-! ### Errors are permanent (R219) -/

/-- Before a load a step is refused, so one that fails has a program loaded (R242). -/
theorem loaded_of_coreStep_fault (h : coreStep s = .fault f) : s.loaded = true := by
  cases hl : s.loaded with
  | true => rfl
  | false => simp [coreStep, hl] at h

/-- An error depends on none of the inputs: it is the step's under those in the state exactly if under any others. -/
theorem coreStep_fault_iff_stepCall (keys : BitVec 16) (rand : Byte) :
    coreStep s = .fault f ↔ stepCall keys rand s = .fault f :=
  ⟨fun h => coreStep_fault_congr h s.dt s.st s.dirty keys rand,
    fun h => coreStep_fault_congr h s.dt s.st s.dirty s.keys s.rand⟩

/-- Of the operations that change the state, a tick and a clear touch nothing an error depends on, and neither a
second load nor the failing step completes. -/
theorem perform_keeps_coreStep_fault (op : HostOp) (s : State) (h : coreStep s = .fault f) :
    coreStep (perform op s).1 = .fault f := by
  rcases perform_cases op s with hp | hp | hp | ⟨rom, hp⟩ | ⟨keys, rand, hp⟩
  · rwa [hp]
  · rw [hp]
    exact coreStep_fault_congr h (tickDown s.dt) (tickDown s.st) s.dirty s.keys s.rand
  · rw [hp]
    exact coreStep_fault_congr h s.dt s.st false s.keys s.rand
  · cases (loaded_of_coreStep_fault h).symm.trans (loadProgram_next hp).1
  · cases ((coreStep_fault_iff_stepCall keys rand).mp h).symm.trans hp

/-- Only a step that fails replies with an error (R217). -/
theorem stepCall_of_reply_err {keys : BitVec 16} {rand : Byte}
    (h : (perform (.step keys rand) s).2 = .err f) : stepCall keys rand s = .fault f := by
  cases hstep : stepCall keys rand s with
  | next | refused => simp [perform, settle, hstep] at h
  | fault g => simpa [perform, settle, hstep] using h

/-- Every error that a step of the run has returned is the one that a step returns now. -/
def Run.ErrorsStand (r : Run) : Prop :=
  ∀ keys rand f, (HostOp.step keys rand, HostReply.err f) ∈ r.log → coreStep r.state = .fault f

theorem Run.errorsStand_startAt (s : State) : (Run.startAt s).ErrorsStand :=
  fun _ _ _ h => nomatch h

/-- An error just returned left the state it came from, and an earlier one still stands there. -/
theorem Run.ErrorsStand.next {r : Run} (h : r.ErrorsStand) (op : HostOp) : (r.next op).ErrorsStand := by
  intro keys rand f hmem
  refine perform_keeps_coreStep_fault op r.state ?_
  rcases List.mem_cons.mp hmem with hnew | hold
  · obtain ⟨rfl, hreply⟩ := Prod.mk.inj hnew
    exact (coreStep_fault_iff_stepCall keys rand).mpr (stepCall_of_reply_err hreply.symm)
  · exact h keys rand f hold

theorem Run.ErrorsStand.nextAll {r : Run} (h : r.ErrorsStand) (ops : List HostOp) :
    (r.nextAll ops).ErrorsStand := by
  induction ops generalizing r with
  | nil => exact h
  | cons op ops ih => exact ih (h.next op)

/-! ### Turns of the host (R223, R226, R229) -/

/-- The turn without a tick or a clear that gives the same inputs again. -/
theorem applyTurn_idle (s : State) : applyTurn ⟨0, false, s.keys, s.rand⟩ s = s := by
  simp [applyTurn]

theorem applyTurn_tickTimers (n : Nat) (clears : Bool) (keys : BitVec 16) (rand : Byte) (s : State) :
    applyTurn ⟨n, clears, keys, rand⟩ (tickTimers s) = applyTurn ⟨n + 1, clears, keys, rand⟩ s := by
  simp [applyTurn, tickTimers, countdown_tickDown]

theorem applyTurn_clearDirty (n : Nat) (clears : Bool) (keys : BitVec 16) (rand : Byte) (s : State) :
    applyTurn ⟨n, clears, keys, rand⟩ (clearDirty s) = applyTurn ⟨n, true, keys, rand⟩ s := by
  simp [applyTurn, clearDirty]

/-- n ticks one after the other count both timers down by n. -/
theorem performAll_replicate_tickTimers (n : Nat) (s : State) :
    performAll (List.replicate n .tickTimers) s = applyTurn ⟨n, false, s.keys, s.rand⟩ s := by
  induction n generalizing s with
  | zero => exact (applyTurn_idle s).symm
  | succ n ih => exact (ih (tickTimers s)).trans (applyTurn_tickTimers n false s.keys s.rand s)

theorem toneActive_eq_decide (s : State) : toneActive s = decide (s.st ≠ 0) :=
  Bool.eq_iff_iff.mpr ((toneActive_iff s).trans decide_eq_true_iff.symm)

end Sys2Proof.Machine

open Sys2Proof Sys2Proof.Machine

/-- Settles O57: every operation keeps the invariant, and so does every list of them. -/
theorem everyInterleavingKeepsTheInvariant : Obligations.EveryInterleavingKeepsTheInvariant :=
  fun ops _ hinv => performAll_keeps perform_keeps_inv ops hinv

/-- Settles O11: each case of `Raises` is one kind, and an address reported is the larger of I and 4096. -/
theorem eachInstructionRaisesOneKindOfError : Obligations.EachInstructionRaisesOneKindOfError := by
  intro i s
  refine ⟨exec_ne_refused i s, fun f h => ?_⟩
  cases exec_fault h
  case ret => exact .inl ⟨rfl, rfl⟩
  case call nnn _ => exact .inr (.inl ⟨⟨nnn, rfl⟩, rfl⟩)
  case skp x _ | sknp x _ => exact .inr (.inr (.inl ⟨⟨x, by simp⟩, _, rfl⟩))
  case drw x y n _ => exact .inr (.inr (.inr ⟨⟨x, y, n, by simp⟩, _, le_max_right _ _, rfl⟩))
  case ldB x _ | dump x _ | load x _ =>
    exact .inr (.inr (.inr ⟨⟨x, 0, 0, by simp⟩, _, le_max_right _ _, rfl⟩))

/-- Settles O46: that many ticks are a turn's countdown, the schedule decides the turn, and a turn's frame is its own. -/
theorem hostTurnIsTicksAndClear : Obligations.HostTurnIsTicksAndClear := by
  refine ⟨fun s t => ?_, fun s t ts h => hostTurn_of_cons h, fun s h => ⟨_, hostTurn_of_nil h⟩, fun s => ?_⟩
  · rw [performAll_replicate_tickTimers]
    cases hc : t.clears <;> simp [applyTurn, clearDirty, hc]
  · exact ⟨fun _ => rfl, fun _ _ => rfl, rfl, rfl, ⟨rfl, rfl⟩, rfl, rfl, rfl⟩

/-- Settles O47, by induction on the list: a tick before a turn is one tick more, a clear makes it a turn that clears,
and a read is nothing. -/
theorem everyInterleavingIsATurn : Obligations.EveryInterleavingIsATurn := by
  intro ops
  induction ops with
  | nil => exact fun s _ => (applyTurn_idle s).symm
  | cons op ops ih =>
    intro s hall
    obtain ⟨hop, hops⟩ := List.forall_mem_cons.mp hall
    rw [performAll, ih _ hops]
    rcases hop with rfl | rfl | rfl | rfl | rfl
    · simpa [perform] using applyTurn_tickTimers _ _ _ _ s
    · simpa [perform] using applyTurn_clearDirty _ _ _ _ s
    all_goals simp [perform]

/-- Settles O53: an error under some inputs is an error under all, and every operation keeps it. -/
theorem errorsArePermanent : Obligations.ErrorsArePermanent := by
  rintro s f ⟨keys₀, rand₀, h⟩ ops keys rand
  have hcore : coreStep s = .fault f := (coreStep_fault_iff_stepCall keys₀ rand₀).mpr h
  exact (coreStep_fault_iff_stepCall keys rand).mp (performAll_keeps perform_keeps_coreStep_fault ops hcore)

/-- Settles O54: every error in a run's log still stands, and the log, which only grows, makes it faulted and not halted. -/
theorem faultedRunsNeverRecover : Obligations.FaultedRunsNeverRecover := by
  intro s ops keys rand f h
  have hstand := (Run.errorsStand_startAt s).nextAll ops
  refine ⟨fun keys' rand' => (coreStep_fault_iff_stepCall keys' rand').mp (hstand keys rand f h), fun more => ?_⟩
  have hlater : (HostOp.step keys rand, HostReply.err f) ∈ ((Run.startAt s).nextAll (ops ++ more)).log :=
    Run.nextAll_append ops more _ ▸ Run.mem_log_nextAll more h
  exact ⟨⟨keys, rand, f, hlater⟩, fun ⟨hnone, _⟩ => hnone _ f hlater⟩

/-- Settles O44: each timer by the law of its tick. -/
theorem tickCountsBothTimersDown : Obligations.TickCountsBothTimersDown :=
  fun s => ⟨tickDown_toNat s.dt, tickDown_toNat s.st, rfl⟩

/-- Settles O45: the clear and the dirty read are their definitions, and the tone's test is the decision of ST ≠ 0. -/
theorem hostReadsAndClears : Obligations.HostReadsAndClears :=
  fun s => ⟨rfl, rfl, by rw [perform, toneActive_eq_decide]⟩

end

section
/-! PROOFS. Construction, the load and the end states of 70_reset_and_hazards.md: the state and the memory that
construction leaves (R240, R59 to R61), what a load writes and what is refused (R241, R242), and the self-jump, at which
the host can move nothing but the timers, the dirty flag and the inputs (R244). -/

namespace Sys2Proof.Machine

variable {s t u : State}

/-! ### Moves outside the interface (R242) -/

theorem coreStep_of_not_loaded (h : s.loaded = false) : coreStep s = .refused .stepBeforeLoad := by
  simp [coreStep, h]

theorem step_of_not_loaded (h : s.loaded = false) : step s = .refused .stepBeforeLoad := by
  simp [step, coreStep_of_not_loaded h]

/-- The inputs of a host's step do not load a program. -/
theorem perform_step_of_not_loaded (h : s.loaded = false) (keys : BitVec 16) (rand : Byte) :
    perform (.step keys rand) s = (s, .refused .stepBeforeLoad) :=
  congrArg (settle s) (coreStep_of_not_loaded (s := { s with keys := keys, rand := rand }) h)

theorem loadProgram_of_loaded (h : s.loaded = true) (rom : List Byte) :
    loadProgram rom s = .refused .secondLoad := by
  simp [loadProgram, h]

theorem perform_loadProgram_of_loaded (h : s.loaded = true) (rom : List Byte) :
    perform (.loadProgram rom) s = (s, .refused .secondLoad) :=
  congrArg (settle s) (loadProgram_of_loaded h rom)

/-! ### The first load (R241, R215) -/

theorem loadProgram_of_fits (h : s.loaded = false) {rom : List Byte} (hlen : rom.length ≤ 3584) :
    loadProgram rom s = .next { s with mem := s.mem.writeAll 0x200 rom, loaded := true } := by
  rcases loadProgram_cases rom s with ⟨hl, _⟩ | ⟨_, _, heq⟩ | ⟨_, hlong, _⟩
  · cases h.symm.trans hl
  · exact heq
  · exact absurd hlen hlong.not_ge

theorem loadProgram_of_too_long (h : s.loaded = false) {rom : List Byte} (hlen : 3584 < rom.length) :
    loadProgram rom s = .fault (.romTooLarge rom.length) := by
  rcases loadProgram_cases rom s with ⟨hl, _⟩ | ⟨_, hshort, _⟩ | ⟨_, _, heq⟩
  · cases h.symm.trans hl
  · exact absurd hshort hlen.not_ge
  · exact heq

/-! ### Memory at construction (R59 to R61) -/

/-- The glyph table is 80 bytes from 0x050 on, and construction leaves 0 around it (R59). -/
theorem initialByte_outside_glyphs {a : Nat} (h : a < 0x050 ∨ 0x0A0 ≤ a) : initialByte a = 0 := by
  have hlen : glyphs.length = 80 := rfl
  by_cases hlow : a < 0x050
  · exact if_pos hlow
  · have hend : glyphs.length ≤ a - 0x050 := by omega
    rw [initialByte, if_neg hlow, List.getD_eq_default _ _ hend]

theorem initialByte_glyphBase_add (n : Nat) : initialByte (0x050 + n) = glyphs.getD n 0 := by
  rw [initialByte, if_neg (Nat.le_add_right 0x050 n).not_gt, Nat.add_sub_cancel_left]

/-- The glyphs 0 to F as numbers: a glyph's five bytes in base 256, its top row highest (R60). -/
def glyphNumbers : List Nat :=
  [0xF0909090F0, 0x2060202070, 0xF010F080F0, 0xF010F010F0, 0x9090F01010, 0xF080F010F0, 0xF080F090F0,
    0xF010204040, 0xF090F090F0, 0xF090F010F0, 0xF090F09090, 0xE090E090E0, 0xF0808080F0, 0xE0909090E0,
    0xF080F080F0, 0xF080F08080]

/-- Row j of glyph k stands at place 5k + j of the glyph table: a fact about its 80 bytes. -/
theorem glyphs_getD_eq_digit : ∀ (k : Fin 16) (j : Fin 5),
    (glyphs.getD (5 * k.val + j.val) 0).toNat = glyphNumbers[k.val]! / 256 ^ (4 - j.val) % 256 := by
  decide

theorem initialByte_glyph {k j g : Nat} (hj : j < 5) (hg : glyphNumbers[k]? = some g) :
    (initialByte (0x050 + 5 * k + j)).toNat = g / 256 ^ (4 - j) % 256 := by
  have hk : k < 16 := (List.getElem?_eq_some_iff.mp hg).1
  have hrow := glyphs_getD_eq_digit ⟨k, hk⟩ ⟨j, hj⟩
  rwa [List.getElem!_of_getElem? hg, ← initialByte_glyphBase_add, ← Nat.add_assoc] at hrow

/-! ### The self-jump (R244) -/

/-- The word of a self-jump is the encoding of JP to `pc`, as `pc` fits the twelve bits of an address (R72). -/
theorem encodeWord_jp_pc {pc : Word} (h : pc.toNat ≤ 0xFFE) :
    encodeWord (.jp (BitVec.ofNat 12 pc.toNat)) = 0x1000 + pc := by
  apply BitVec.eq_of_toNat_eq
  have hop : (0x1000 : Word).toNat = 0x1000 := rfl
  rw [encodeWord, formNNN_toNat _ _ (by decide), BitVec.toNat_ofNat, BitVec.toNat_add, hop]
  omega

theorem wideAddr_pc {pc : Word} (h : pc.toNat ≤ 0xFFE) : wideAddr (BitVec.ofNat 12 pc.toNat) = pc := by
  apply BitVec.eq_of_toNat_eq
  rw [wideAddr_toNat, BitVec.toNat_ofNat]
  omega

/-- A step at a self-jump runs JP to `pc`, which writes `pc` to `pc` (R121). -/
theorem coreStep_of_atSelfJump (hl : s.loaded = true) (h : AtSelfJump s) : coreStep s = .next s := by
  obtain ⟨hpc, hword⟩ := h
  have hdecode := decodeWord_encodeWord (.jp (BitVec.ofNat 12 s.pc.toNat))
  rw [encodeWord_jp_pc hpc, ← hword] at hdecode
  calc
    coreStep s = exec (.jp (BitVec.ofNat 12 s.pc.toNat)) s := coreStep_eq_exec hl (by omega) hdecode
    _ = .next (s.setPc (wideAddr (BitVec.ofNat 12 s.pc.toNat))) := rfl
    _ = .next s := by rw [wideAddr_pc hpc]; rfl

/-- Only what the host sets directly may have changed: the timers, the dirty flag and the inputs of the step. -/
def OnlyHostElements (s t : State) : Prop :=
  ∃ dt st dirty keys rand, t = { s with dt := dt, st := st, dirty := dirty, keys := keys, rand := rand }

theorem OnlyHostElements.refl (s : State) : OnlyHostElements s s := ⟨_, _, _, _, _, rfl⟩

theorem OnlyHostElements.trans (hst : OnlyHostElements s t) (htu : OnlyHostElements t u) :
    OnlyHostElements s u := by
  obtain ⟨_, _, _, _, _, rfl⟩ := hst
  obtain ⟨_, _, _, _, _, rfl⟩ := htu
  exact ⟨_, _, _, _, _, rfl⟩

theorem OnlyHostElements.loaded_eq (h : OnlyHostElements s t) : t.loaded = s.loaded := by
  obtain ⟨_, _, _, _, _, rfl⟩ := h
  rfl

/-- A self-jump is a fact about memory and `pc`. -/
theorem OnlyHostElements.atSelfJump (h : OnlyHostElements s t) (hs : AtSelfJump s) : AtSelfJump t := by
  obtain ⟨_, _, _, _, _, rfl⟩ := h
  exact hs

/-- The frame of R244. -/
theorem OnlyHostElements.frame (h : OnlyHostElements s t) : SameMemory s t ∧ SameRegsBut [] s t ∧
    t.i = s.i ∧ t.pc = s.pc ∧ SameStack s t ∧ t.fb = s.fb := by
  obtain ⟨_, _, _, _, _, rfl⟩ := h
  exact ⟨fun _ => rfl, fun _ _ => rfl, rfl, rfl, ⟨rfl, rfl⟩, rfl⟩

theorem stepCall_of_atSelfJump (hl : s.loaded = true) (h : AtSelfJump s) (keys : BitVec 16) (rand : Byte) :
    stepCall keys rand s = .next { s with keys := keys, rand := rand } :=
  coreStep_of_atSelfJump (s := { s with keys := keys, rand := rand }) hl h

/-- No operation at a self-jump does more than the host's own part of it: a load is refused, and a step keeps all but
its inputs. -/
theorem perform_onlyHostElements (hl : s.loaded = true) (h : AtSelfJump s) (op : HostOp) :
    OnlyHostElements s (perform op s).1 := by
  cases op with
  | loadProgram rom =>
    rw [perform_loadProgram_of_loaded hl]
    exact .refl s
  | step keys rand =>
    rw [perform_step_of_next (stepCall_of_atSelfJump hl h keys rand)]
    exact ⟨_, _, _, _, _, rfl⟩
  | tickTimers | clearDirty => exact ⟨_, _, _, _, _, rfl⟩
  | readFramebuffer | isDirty | readTone => exact .refl s

theorem perform_reply_ne_err (hl : s.loaded = true) (h : AtSelfJump s) (op : HostOp) (f : Fault) :
    (perform op s).2 ≠ .err f := by
  cases op with
  | loadProgram rom =>
    rw [perform_loadProgram_of_loaded hl]
    exact nofun
  | step keys rand =>
    rw [perform_step_of_next (stepCall_of_atSelfJump hl h keys rand)]
    exact nofun
  | tickTimers | clearDirty | readFramebuffer | isDirty | readTone => exact nofun

/-- The new reply is no error, and the run still stands at the self-jump. -/
theorem Halted.next {r : Run} (h : Halted r) (hl : r.state.loaded = true) (op : HostOp) : Halted (r.next op) := by
  obtain ⟨hnone, hjump⟩ := h
  refine ⟨fun op' f hmem => ?_, (perform_onlyHostElements hl hjump op).atSelfJump hjump⟩
  rcases List.mem_cons.mp hmem with hnew | hold
  · exact perform_reply_ne_err hl hjump op f (Prod.mk.inj hnew).2.symm
  · exact hnone op' f hold

theorem Halted.nextAll {r : Run} (h : Halted r) (hl : r.state.loaded = true) (ops : List HostOp) :
    Halted (r.nextAll ops) ∧ OnlyHostElements r.state (r.nextAll ops).state := by
  induction ops generalizing r with
  | nil => exact ⟨h, .refl _⟩
  | cons op ops ih =>
    have hop : OnlyHostElements r.state (r.next op).state := perform_onlyHostElements hl h.2 op
    obtain ⟨hhalted, hops⟩ := ih (h.next hl op) (hop.loaded_eq.trans hl)
    exact ⟨hhalted, hop.trans hops⟩

end Sys2Proof.Machine

open Sys2Proof Sys2Proof.Machine

/-- Settles O14: a first load has one answer for each length, and the ROM's bytes are the only ones it writes. -/
theorem loadWritesTheRomAndNothingElse : Obligations.LoadWritesTheRomAndNothingElse := by
  intro s rom hl
  refine ⟨fun hlen => ?_, fun hlen => ?_⟩
  · have hload := loadProgram_of_fits hl hlen
    exact ⟨_, hload, congrArg (settle s) hload, rfl, fun k b hk => read_loadProgram hload hk,
      Memory.read_writeAll_outside s.mem 0x200 rom, fun _ _ => rfl, rfl, rfl, ⟨rfl, rfl⟩, ⟨rfl, rfl⟩,
      ⟨rfl, rfl⟩, rfl, rfl, rfl, rfl, rfl⟩
  · have hload := loadProgram_of_too_long hl hlen
    exact ⟨hload, congrArg (settle s) hload⟩

/-- Settles O10: each refusal is decided by the loaded bit alone. -/
theorem hostMovesOutsideTheInterfaceAreRefused : Obligations.HostMovesOutsideTheInterfaceAreRefused :=
  ⟨fun _ h => step_of_not_loaded h, fun _ rom h => loadProgram_of_loaded h rom⟩

/-- Settles O12: the arrays repeat one value, and the memory lists nothing, so that it reads as R59 gives. -/
theorem constructionResetsEveryElement : Obligations.ConstructionResetsEveryElement := by
  refine ⟨fun x => Vector.getElem_replicate x.isLt, rfl, rfl, rfl, fun k => Vector.getElem_replicate k.isLt,
    rfl, rfl, fun r c => ?_, rfl, fun _ h => initialByte_outside_glyphs h,
    fun _ _ _ hj hg => initialByte_glyph hj hg⟩
  simp [State.reset, Framebuffer.cell]

/-- Settles O13: the step is refused because no program is loaded, and the other fields are as construction sets them. -/
theorem constructionOfTheModelFields : Obligations.ConstructionOfTheModelFields :=
  ⟨rfl, step_of_not_loaded rfl, perform_step_of_not_loaded rfl, rfl, rfl, rfl⟩

/-- Settles O25: the jump of a self-jump is to where it stands, so every operation leaves the run at it without an error,
and all of them together change only what is the host's. -/
theorem selfJumpIsStable : Obligations.SelfJumpIsStable := by
  refine ⟨fun s hl h => coreStep_of_atSelfJump hl h, fun r ops hl h => ?_⟩
  obtain ⟨hhalted, honly⟩ := h.nextAll hl ops
  exact ⟨hhalted, honly.frame⟩

/-- Settles O55: the memory lists no cell, `pc` is 0x200, and with sp = 0 no stack entry is live. -/
theorem invariantHoldsAtReset : Obligations.InvariantHoldsAtReset :=
  ⟨⟨.nil, nofun⟩, by decide, fun k hk => absurd hk (Nat.not_lt_zero k.val)⟩

end
